-- ==== Sys2Proof/Word.lean ====
section
/-! DEFINITION. The widths of the hardware (00_scope R7): `WORDW = 72`, `W = 64`, `CW = 32`. -/

namespace Sys2Proof

/-- One program word as the block reads it from `PROG`: `WORDW = 72` bits (30_encoding R101). -/
abbrev RawWord := BitVec 72

/-- The payload of an Integer, an Address or a displacement: `W = 64` bits, a signed two's complement
number (00_scope R7, R10). Its number is `toInt`. -/
abbrev Word64 := BitVec 64

/-- The payload of a Char: `CW = 32` bits, unsigned (00_scope R7, R10). -/
abbrev CharCode := BitVec 32

end Sys2Proof
end

