-- ==== Sys2Proof/Syntax.lean ====
section
/-! DEFINITION. The names, values and words of the gvm word ISA and the instructions: one constructor of
`Instr` per row of spec/opcode_table.json. -/

namespace Sys2Proof

/-- The ten registers (10_state R30): four Special, five GeneralPurpose, one Flag. -/
inductive Reg where
  | pc | bp | sp | hp | r1 | r2 | r3 | a1 | a2 | zf
deriving DecidableEq, Repr

/-- A Storable (00_scope R10): what a register, stack slot or heap slot may hold. An `addr` is a bare number
with no area tag (10_state R33). -/
inductive Storable where
  | int (n : Word64)
  | char (c : CharCode)
  | bool (b : Bool)
  | addr (n : Word64)
deriving DecidableEq, Repr

/-- A Slot (00_scope R10): `none` is the spec's `empty`, a content of its own (10_state R31). -/
abbrev Slot := Option Storable

/-- The literals an Immediate word may carry (30_encoding R109): never an Address. -/
inductive Imm where
  | int (n : Word64)
  | char (c : CharCode)
  | bool (b : Bool)
deriving DecidableEq, Repr

/-- The base of an Offset word (30_encoding R110): only BP and SP. -/
inductive Base where
  | bp | sp
deriving DecidableEq, Repr

/-- The space an Address word carries (30_encoding R111). -/
inductive Space where
  | prog | heap
deriving DecidableEq, Repr

/-- An operand word (00_scope R11). -/
inductive Operand where
  | reg (r : Reg)
  | imm (v : Imm)
  | off (b : Base) (d : Word64)
  | addr (sp : Space) (n : Word64)
deriving DecidableEq, Repr

/-- The 18 opcodes, in the order of their numbers (30_encoding R104). -/
inductive Opcode where
  | nop | mov | push | pop | alloc | store | load | call | ret
  | add | sub | jmp | je | jne | eq | ne | lt | le
deriving DecidableEq, Repr

/-- What decoding one 72-bit word yields (30_encoding R103): an opcode, an operand, or `Invalid`. -/
inductive Word where
  | op (o : Opcode)
  | operand (x : Operand)
  | invalid
deriving DecidableEq, Repr

/-- The instructions (30_encoding R100): an opcode and the words found at its operand positions. A position
may hold a word that is no operand (an opcode or an `Invalid` word): such an instruction is not well formed,
and running it raises `UnsupportedWord` as 30_encoding R112 and 40_engine_and_operands R143 say (log 8). -/
inductive Instr where
  | nop
  | mov (o1 o2 : Word)
  | push (o1 : Word)
  | pop (o1 : Word)
  | alloc (o1 : Word)
  | store (o1 o2 : Word)
  | load (o1 o2 : Word)
  | call (o1 : Word)
  | ret
  | add (o1 o2 : Word)
  | sub (o1 o2 : Word)
  | jmp (o1 : Word)
  | je (o1 : Word)
  | jne (o1 : Word)
  | eq (o1 o2 : Word)
  | ne (o1 o2 : Word)
  | lt (o1 o2 : Word)
  | le (o1 o2 : Word)
deriving DecidableEq, Repr

/-- The opcode of an instruction. -/
def Instr.opcode : Instr → Opcode
  | .nop => .nop
  | .mov _ _ => .mov
  | .push _ => .push
  | .pop _ => .pop
  | .alloc _ => .alloc
  | .store _ _ => .store
  | .load _ _ => .load
  | .call _ => .call
  | .ret => .ret
  | .add _ _ => .add
  | .sub _ _ => .sub
  | .jmp _ => .jmp
  | .je _ => .je
  | .jne _ => .jne
  | .eq _ _ => .eq
  | .ne _ _ => .ne
  | .lt _ _ => .lt
  | .le _ _ => .le

/-- The words at the operand positions of an instruction, in order. -/
def Instr.operands : Instr → List Word
  | .nop => []
  | .mov a b => [a, b]
  | .push a => [a]
  | .pop a => [a]
  | .alloc a => [a]
  | .store a b => [a, b]
  | .load a b => [a, b]
  | .call a => [a]
  | .ret => []
  | .add a b => [a, b]
  | .sub a b => [a, b]
  | .jmp a => [a]
  | .je a => [a]
  | .jne a => [a]
  | .eq a b => [a, b]
  | .ne a b => [a, b]
  | .lt a b => [a, b]
  | .le a b => [a, b]

/-- The instruction of an opcode with the words at positions 1 and 2 (those the arity does not reach are
ignored, 30_encoding R100). -/
def Instr.ofWords : Opcode → Word → Word → Instr
  | .nop, _, _ => .nop
  | .mov, a, b => .mov a b
  | .push, a, _ => .push a
  | .pop, a, _ => .pop a
  | .alloc, a, _ => .alloc a
  | .store, a, b => .store a b
  | .load, a, b => .load a b
  | .call, a, _ => .call a
  | .ret, _, _ => .ret
  | .add, a, b => .add a b
  | .sub, a, b => .sub a b
  | .jmp, a, _ => .jmp a
  | .je, a, _ => .je a
  | .jne, a, _ => .jne a
  | .eq, a, b => .eq a b
  | .ne, a, b => .ne a b
  | .lt, a, b => .lt a b
  | .le, a, b => .le a b

end Sys2Proof
end

