-- ==== Sys2Proof/WellFormed.lean ====
section
/-! DEFINITION. Well-formed instructions: at every operand position stands an operand word, never an opcode
word or an `Invalid` word (30_encoding R112 (a), (c); 40_engine_and_operands R143). The kinds an opcode admits
at a position (30_encoding R107) are no part of it: an operand of another kind is a legal word there, and the
meanings raise `UnsupportedOperand` for it. -/

namespace Sys2Proof

/-- The word is an operand word (00_scope R11). -/
def Word.isOperand : Word → Bool
  | .operand _ => true
  | .op _ => false
  | .invalid => false

/-- Every operand position of the instruction holds an operand word. -/
def Instr.wellFormed (i : Instr) : Bool :=
  i.operands.all Word.isOperand

end Sys2Proof
end

