-- ==== Sys2Proof/Decode.lean ====
section
/-! DEFINITION. The binary form (30_encoding R101 to R111): decoding one word (total, R103), decoding an
instruction from the words at the program counter, rejecting by name, and the encoder. -/

namespace Sys2Proof

/-! ## The fields of a word (30_encoding R101) -/

/-- `kind = bits[71:64]`. -/
def kindOf (w : RawWord) : BitVec 8 := w.extractLsb' 64 8

/-- `payload = bits[63:0]`. -/
def payloadOf (w : RawWord) : BitVec 64 := w.extractLsb' 0 64

/-- A word from its kind and its payload. -/
def rawWord (k : BitVec 8) (p : BitVec 64) : RawWord := k ++ p

/-! ## Numbers of opcodes and registers -/

/-- Opcode numbers (30_encoding R104). -/
def Opcode.number : Opcode → Nat
  | .nop => 0
  | .mov => 1
  | .push => 2
  | .pop => 3
  | .alloc => 4
  | .store => 5
  | .load => 6
  | .call => 7
  | .ret => 8
  | .add => 9
  | .sub => 10
  | .jmp => 11
  | .je => 12
  | .jne => 13
  | .eq => 14
  | .ne => 15
  | .lt => 16
  | .le => 17

/-- The opcode of a number; numbers above 17 are reserved (30_encoding R103). -/
def Opcode.ofNumber : Nat → Option Opcode
  | 0 => some .nop
  | 1 => some .mov
  | 2 => some .push
  | 3 => some .pop
  | 4 => some .alloc
  | 5 => some .store
  | 6 => some .load
  | 7 => some .call
  | 8 => some .ret
  | 9 => some .add
  | 10 => some .sub
  | 11 => some .jmp
  | 12 => some .je
  | 13 => some .jne
  | 14 => some .eq
  | 15 => some .ne
  | 16 => some .lt
  | 17 => some .le
  | _ => none

/-- The number of operand words of an opcode (30_encoding R104). -/
def Opcode.arity : Opcode → Nat
  | .nop => 0
  | .mov => 2
  | .push => 1
  | .pop => 1
  | .alloc => 1
  | .store => 2
  | .load => 2
  | .call => 1
  | .ret => 0
  | .add => 2
  | .sub => 2
  | .jmp => 1
  | .je => 1
  | .jne => 1
  | .eq => 2
  | .ne => 2
  | .lt => 2
  | .le => 2

/-- Register numbers (30_encoding R108). -/
def Reg.number : Reg → Nat
  | .pc => 0
  | .bp => 1
  | .sp => 2
  | .hp => 3
  | .r1 => 4
  | .r2 => 5
  | .r3 => 6
  | .a1 => 7
  | .a2 => 8
  | .zf => 9

/-- The register of a number; numbers 10 and above are reserved (30_encoding R108). -/
def Reg.ofNumber : Nat → Option Reg
  | 0 => some .pc
  | 1 => some .bp
  | 2 => some .sp
  | 3 => some .hp
  | 4 => some .r1
  | 5 => some .r2
  | 6 => some .r3
  | 7 => some .a1
  | 8 => some .a2
  | 9 => some .zf
  | _ => none

/-! ## Decoding one word (30_encoding R102, R103) -/

/-- `kind = OP`: an opcode number of at most 17, read unsigned. -/
def decodeOpcode (p : BitVec 64) : Word :=
  match Opcode.ofNumber p.toNat with
  | some o => .op o
  | none => .invalid

/-- `kind = REG`: a register number of at most 9, read unsigned. -/
def decodeReg (p : BitVec 64) : Word :=
  match Reg.ofNumber p.toNat with
  | some r => .operand (.reg r)
  | none => .invalid

/-- `kind = IMM_CHAR`: the code in bits[31:0]; bits[63:32] must be 0. -/
def decodeChar (p : BitVec 64) : Word :=
  if p.extractLsb' 32 32 = 0#32 then .operand (.imm (.char (p.extractLsb' 0 32))) else .invalid

/-- `kind = IMM_BOOL`: the value in bits[0]; bits[63:1] must be 0. -/
def decodeBool (p : BitVec 64) : Word :=
  if p.extractLsb' 1 63 = 0#63 then .operand (.imm (.bool (p.getLsbD 0))) else .invalid

/-- `decode(w)` of 30_encoding R103, total on all bit patterns: kinds 0x09 to 0xFF are reserved. -/
def decodeWord (w : RawWord) : Word :=
  match (kindOf w).toNat with
  | 0x00 => decodeOpcode (payloadOf w)
  | 0x01 => decodeReg (payloadOf w)
  | 0x02 => .operand (.imm (.int (payloadOf w)))
  | 0x03 => decodeChar (payloadOf w)
  | 0x04 => decodeBool (payloadOf w)
  | 0x05 => .operand (.off .bp (payloadOf w))
  | 0x06 => .operand (.off .sp (payloadOf w))
  | 0x07 => .operand (.addr .prog (payloadOf w))
  | 0x08 => .operand (.addr .heap (payloadOf w))
  | _ => .invalid

/-! ## Decoding an instruction (30_encoding R100) -/

/-- Why no instruction can be read from a sequence of words. -/
inductive DecodeError where
  /-- There is no word at all. -/
  | noWord
  /-- The first word is an operand word or `Invalid` (30_encoding R112 (a), (b)). -/
  | notAnOpcode
  /-- The opcode's operand words lie beyond the last word (30_encoding R112 (f)). -/
  | truncated (o : Opcode)
deriving DecidableEq, Repr

/-- The instruction at the head of a sequence of words and the words after it. The length comes from the
opcode alone; operand words do not affect it (30_encoding R100). -/
def decodeInstr (ws : List RawWord) : Except DecodeError (Instr × List RawWord) :=
  match ws with
  | [] => .error .noWord
  | w :: rest =>
    match decodeWord w with
    | .op o =>
      if rest.length < o.arity then .error (.truncated o)
      else
        .ok (Instr.ofWords o (decodeWord (rest.getD 0 0)) (decodeWord (rest.getD 1 0)),
          rest.drop o.arity)
    | .operand _ => .error .notAnOpcode
    | .invalid => .error .notAnOpcode

/-! ## Encoding (30_encoding R102, R103) -/

/-- The kind of an Immediate word and its payload. -/
def encodeImm : Imm → RawWord
  | .int n => rawWord 0x02 n
  | .char c => rawWord 0x03 (c.setWidth 64)
  | .bool b => rawWord 0x04 (if b then 1 else 0)

/-- The word of an operand. -/
def encodeOperand : Operand → RawWord
  | .reg r => rawWord 0x01 (BitVec.ofNat 64 r.number)
  | .imm v => encodeImm v
  | .off .bp d => rawWord 0x05 d
  | .off .sp d => rawWord 0x06 d
  | .addr .prog n => rawWord 0x07 n
  | .addr .heap n => rawWord 0x08 n

/-- `encode` of 30_encoding R103. DESIGN CHOICE, safe (log 11): `Invalid` has no encoding of its own in the
spec; the encoder writes a pattern of the reserved kind 0xFF for it. -/
def encodeWord : Word → RawWord
  | .op o => rawWord 0x00 (BitVec.ofNat 64 o.number)
  | .operand x => encodeOperand x
  | .invalid => rawWord 0xFF 0

/-- The words of an instruction: its opcode word, then its operand words (30_encoding R100). -/
def encode (i : Instr) : List RawWord :=
  encodeWord (.op i.opcode) :: i.operands.map encodeWord

/-! ## The numbering of spec/opcode_table.json -/

/-- The three words of a table pattern: bit 0 is the least significant bit of the first word, a later word's
bits count on from it; bits from `nbits` on are 0. -/
def tableWords (nbits w : Nat) : List RawWord :=
  let v := w % 2 ^ nbits
  [BitVec.ofNat 72 v, BitVec.ofNat 72 (v / 2 ^ 72), BitVec.ofNat 72 (v / 2 ^ 144)]

/-- The instruction the decoder reads from a pattern of spec/opcode_table.json. -/
def decodeTableWord (nbits w : Nat) : Option Instr :=
  match decodeInstr (tableWords nbits w) with
  | .ok (i, _) => some i
  | .error _ => none

end Sys2Proof
end

