-- ==== Sys2Proof/Config.lean ====
section
/-! DEFINITION. The parameters of the block (00_scope R6 to R8) and the one value the spec leaves without a
number. -/

namespace Sys2Proof

/-- The host's configuration, constant from reset to the end of a run (00_scope R6, R8;
70_reset_and_hazards R301). The program and its length are held beside it in `State`. -/
structure Config where
  /-- `StackSize`, the capacity of the stack in slots (00_scope R6). -/
  stackSize : Nat
  /-- `HeapSize`, the capacity of the heap in slots (00_scope R6). -/
  heapSize : Nat
  /-- `EXT`: whether the nine opcodes of 00_scope R5 execute the extension or fault (00_scope R8). -/
  ext : Bool
  /-- `BP_RESET`, the reset content of BP (00_scope R8, 10_state R52). -/
  bpReset : Slot
deriving DecidableEq, Repr

/-- The bounds of 00_scope R7 on the sizes. DEDUCED: `BP_RESET` is `empty` or an Address, because 10_state R35
says that BP is `empty` or holds an `Addr` at every point of a run (log 10). -/
def Config.valid (c : Config) : Bool :=
  decide (1 ≤ c.stackSize ∧ c.stackSize < 2 ^ 63 ∧ c.heapSize < 2 ^ 63) &&
    match c.bpReset with
    | none => true
    | some (.addr _) => true
    | some _ => false

/-- DESIGN CHOICE, safe (log 6): the `pc` field of the fault record when PC itself is `empty`, a state no run
reaches. 60_exceptions R256 makes the field the number PC had, and there is none: a free value, no body. -/
opaque Config.emptyPcFaultPc : Word64

end Sys2Proof
end

