-- ==== Sys2Proof/Machine/State.lean ====
section
/-! DEFINITION. The state of the gvm CORE (10_state.md) as plain data, the fault record, and the state after
reset (10_state R50, R51; 70_reset_and_hazards R290). -/

namespace Sys2Proof.Machine

/-- The fault kinds of 60_exceptions R250. They are the hardware's own events, recorded in `State`; a step
that raises one answers a next state (log 7). -/
inductive FaultKind where
  | typeMismatch
  | nilRegister
  | unsupportedOperand
  | unsupportedWord
  | stackOverflow
  | stackUnderflow
  | heapOutOfBounds
  | outOfMemory
  | stackOutOfBounds
  | emptySlot
  | unimplementedOpcode
deriving DecidableEq, Repr

/-- The fault record (60_exceptions R256). -/
structure FaultRecord where
  kind : FaultKind
  /-- The value PC had when the step began. -/
  pc : Word64
  /-- The opcode decoded in the step, `none` when the fault came from the fetch of the opcode word. -/
  opcode : Option Opcode
  /-- The position of the operand word the rule blames, 0 when it blames none. -/
  operand : Fin 3
  /-- The register the rule blames, or `none`. -/
  reg : Option Reg
deriving DecidableEq, Repr

/-- The model's own stop. No fault of the hardware is one of these (log 7). -/
inductive Fault where
  /-- Raised by `numOf` (Machine/Ops.lean) when the register `r` (PC, SP, HP or BP) holds a Char or a Bool:
  00_scope R10 calls `num` of it undefined, and 10_state R35 says it does not occur. Safe: the machine stops
  (log 5). No state that meets `RunInv` (Safety.lean) raises it. -/
  | numUndefined (r : Reg)
deriving DecidableEq, Repr

/-- Why an instruction has no meaning. -/
inductive Refusal where
  /-- Raised by an arm of `exec` whose instruction has no meaning yet; no arm raises it now. Safe. -/
  | notModelled (mnemonic : String)
deriving DecidableEq, Repr

/-- The content of STACK or HEAP (20_memory R72, R73): pairs of an index and the Storable there, indices
strictly rising (`Memory.wf`). One location holds one Slot and no space is byte-addressed (20_memory R75), so a
cell is a Storable and not a byte (log 1). -/
abbrev Memory := List (Nat × Storable)

/-- What an index that is not listed reads as: `empty`, the reset content of every stack and heap slot
(10_state R50). A listed entry holds a Storable, so no entry is equal to it. -/
def Memory.unlisted : Slot := none

/-- The machine: the ten registers (10_state R30), STACK and HEAP (R44, R45), the fault record (R47), and the
run's constants, the configuration and the program (R46, log 2), which no instruction writes. -/
structure State where
  pc : Slot
  bp : Slot
  sp : Slot
  hp : Slot
  r1 : Slot
  r2 : Slot
  r3 : Slot
  a1 : Slot
  a2 : Slot
  zf : Slot
  stack : Memory
  heap : Memory
  fault : Option FaultRecord
  cfg : Config
  prog : List RawWord
deriving DecidableEq, Repr

/-- What one step answers. -/
abbrev Result := Host.Outcome State Fault Refusal

/-- The state right after a reset with a configuration and a program (10_state R50, R51;
70_reset_and_hazards R290). -/
def State.resetWith (c : Config) (p : List RawWord) : State where
  pc := some (.addr 0)
  bp := c.bpReset
  sp := some (.addr (BitVec.ofNat 64 c.stackSize))
  hp := some (.addr 0)
  r1 := none
  r2 := none
  r3 := none
  a1 := none
  a2 := none
  zf := none
  stack := []
  heap := []
  fault := none
  cfg := c
  prog := p

/-- The configuration of `State.reset`: `EXT` and `BP_RESET` at the defaults of 00_scope R8. DESIGN CHOICE,
unsafe (log 3): the spec gives the sizes no default; 4 and 4 are those of the source's first scenario. -/
def resetConfig : Config where
  stackSize := 4
  heapSize := 4
  ext := false
  bpReset := none

/-- The machine right after reset, with no program loaded yet (log 4). -/
def State.reset : State := State.resetWith resetConfig []

end Sys2Proof.Machine
end

