-- ==== Sys2Proof/Machine/Ops.lean ====
section
/-! DEFINITION. The named operations over registers and memory (00_scope R9 to R14), the stack primitives
(41_stack R170, R171), raising and taking a fault (60_exceptions R256, R257), and the advance of the program
counter (40_engine_and_operands R146). There is no return from a fault (60_exceptions R259). -/

namespace Sys2Proof.Machine

/-! ## Numbers (00_scope R9, R10) -/

/-- `wrapW(z)`: the number congruent to `z` modulo `2^64` that fits in 64 signed bits. -/
def wrapW (z : Int) : Word64 := BitVec.ofInt 64 z

/-- The 64-bit number of an `Int` or `Addr`; `num` is undefined for `Char` and `Bool`. -/
def numBits : Storable → Option Word64
  | .int n => some n
  | .addr n => some n
  | .char _ => none
  | .bool _ => none

/-! ## Registers (00_scope R12) -/

/-- `x[r]`: the Slot of a register, unchecked. No register is hard-wired (10_state R30). -/
def State.reg (s : State) : Reg → Slot
  | .pc => s.pc
  | .bp => s.bp
  | .sp => s.sp
  | .hp => s.hp
  | .r1 => s.r1
  | .r2 => s.r2
  | .r3 => s.r3
  | .a1 => s.a1
  | .a2 => s.a2
  | .zf => s.zf

/-- `x[r] <- v`: the write of a whole Slot. -/
def State.setReg (s : State) (r : Reg) (v : Slot) : State :=
  match r with
  | .pc => { s with pc := v }
  | .bp => { s with bp := v }
  | .sp => { s with sp := v }
  | .hp => { s with hp := v }
  | .r1 => { s with r1 := v }
  | .r2 => { s with r2 := v }
  | .r3 => { s with r3 := v }
  | .a1 => { s with a1 := v }
  | .a2 => { s with a2 := v }
  | .zf => { s with zf := v }

/-! ## Memory (00_scope R13, 20_memory R75, R78) -/

/-- `MemRead(M, i)` for STACK and HEAP: reading changes nothing. -/
def memRead : Memory → Nat → Slot
  | [], _ => Memory.unlisted
  | (j, v) :: m, i => if j = i then some v else memRead m i

/-- A cell in front of a memory; `empty` needs none. -/
def memCons (i : Nat) (v : Slot) (m : Memory) : Memory :=
  match v with
  | some x => (i, x) :: m
  | none => m

/-- `MemWrite(M, i, v)`: the whole Slot at index `i` becomes `v`; `empty` clears it. -/
def memWrite : Memory → Nat → Slot → Memory
  | [], i, v => memCons i v []
  | (j, w) :: m, i, v =>
    if i < j then memCons i v ((j, w) :: m)
    else if i = j then memCons i v m
    else (j, w) :: memWrite m i v

/-- The canonical form: indices strictly rising. A cell holds a Storable, so none equals `Memory.unlisted`. -/
def Memory.wf : Memory → Bool
  | [] => true
  | [_] => true
  | (i, _) :: (j, w) :: m => decide (i < j) && Memory.wf ((j, w) :: m)

/-- Every listed index is one of the `size` locations of the space (20_memory R72, R73). -/
def Memory.within (size : Nat) (m : Memory) : Bool :=
  m.all fun c => decide (c.1 < size)

/-- The write of one stack slot. -/
def State.writeStack (s : State) (i : Nat) (v : Slot) : State :=
  { s with stack := memWrite s.stack i v }

/-- The write of one heap slot. -/
def State.writeHeap (s : State) (i : Nat) (v : Slot) : State :=
  { s with heap := memWrite s.heap i v }

/-- `ProgLen` (00_scope R6). -/
def State.progLen (s : State) : Nat := s.prog.length

/-- `decode(MemRead(PROG, i))` for an index below `ProgLen` (20_memory R71). -/
def State.progWord (s : State) (i : Nat) : Word := decodeWord (s.prog.getD i 0)

/-! ## Raising and taking a fault -/

/-- How an instruction ends before its last line: `raise K(info)` (00_scope R14) with the state the lines
before it left, or the model's own stop. -/
inductive Stop where
  | raise (k : FaultKind) (operand : Fin 3) (reg : Option Reg) (left : State)
  | stuck (f : Fault)
deriving DecidableEq, Repr

/-- A line of pseudocode that yields a value or ends the instruction. -/
abbrev Eff (α : Type) := Except Stop α

/-- `raise K(info)` in the state `s` (00_scope R14). -/
def raise {α : Type} (s : State) (k : FaultKind) (operand : Fin 3) (reg : Option Reg) : Eff α :=
  .error (.raise k operand reg s)

/-- The `pc` field of a fault record raised in a step that began in `s` (60_exceptions R256). -/
def faultPc (s : State) : Word64 :=
  match (s.reg .pc).bind numBits with
  | some p => p
  | none => Config.emptyPcFaultPc

/-- Fault entry (60_exceptions R257): the record is written and nothing else happens; no register is saved,
control goes nowhere, PC stays. -/
def State.takeFault (s : State) (f : FaultRecord) : State :=
  { s with fault := some f }

/-- The end of a step that began in `s0`, decoded `o`, and stopped (60_exceptions R256, R257): the fault is
taken in the state the instruction left. -/
def settle (o : Option Opcode) (s0 : State) : Stop → Result
  | .raise k j r left =>
    .next (left.takeFault { kind := k, pc := faultPc s0, opcode := o, operand := j, reg := r })
  | .stuck f => .fault f

/-! ## Checked reads -/

/-- `rd(r)` (00_scope R12): `NilRegister(reg = r)` when the register is `empty`; `j` is the position of the
operand word that names it, 0 for an implicit read. -/
def rd (s : State) (r : Reg) (j : Fin 3) : Eff Storable :=
  match s.reg r with
  | some v => .ok v
  | none => raise s .nilRegister j (some r)

/-- `num(v)` of a value read from register `r` (00_scope R10). -/
def numOf (r : Reg) (v : Storable) : Eff Word64 :=
  match numBits v with
  | some n => .ok n
  | none => .error (.stuck (.numUndefined r))

/-- `num(rd(r))`. -/
def rdNum (s : State) (r : Reg) (j : Fin 3) : Eff Word64 := do
  let v ← rd s r j
  numOf r v

/-! ## The stack primitives (41_stack R170, R171) -/

/-- `push(v)`: SP is decremented before the check, as 41_stack R170 orders it. -/
def push (s : State) (v : Storable) : Eff State := do
  let n ← rdNum s .sp 0
  let k := wrapW (n.toInt - 1)
  let s1 := s.setReg .sp (some (.addr k))
  if k.toInt < 0 then raise s1 .stackOverflow 0 none
  else if (s.cfg.stackSize : Int) ≤ k.toInt then raise s1 .stackOutOfBounds 0 none
  else .ok (s1.writeStack k.toInt.toNat (some v))

/-- `pop_read()`: the index SP holds and the value there; nothing is written. -/
def popRead (s : State) : Eff (Word64 × Storable) := do
  let n ← rdNum s .sp 0
  if (s.cfg.stackSize : Int) ≤ n.toInt then raise s .stackUnderflow 0 none
  else if n.toInt < 0 then raise s .stackOutOfBounds 0 none
  else
    match memRead s.stack n.toInt.toNat with
    | some v => .ok (n, v)
    | none => raise s .emptySlot 0 none

/-- `pop_commit(s)`: the slot is cleared and SP incremented. -/
def popCommit (s : State) (n : Word64) : State :=
  (s.writeStack n.toInt.toNat none).setReg .sp (some (.addr (wrapW (n.toInt + 1))))

/-! ## The end of an instruction -/

/-- `x[PC] <- Addr(wrapW(num(x[PC]) + 1 + k))`, PC read after the effect (40_engine_and_operands R146). -/
def advance (k : Nat) (s : State) : Result :=
  match (s.reg .pc).bind numBits with
  | some n => .next (s.setReg .pc (some (.addr (wrapW (n.toInt + 1 + k)))))
  | none => .fault (.numUndefined .pc)

/-- What an effect function leaves: whether it was a taken control transfer, and the state
(40_engine_and_operands R144). -/
abbrev Effect := Eff (Bool × State)

/-- The end of a step of opcode `o` that began in `s0` (40_engine_and_operands R140, R146). -/
def conclude (o : Opcode) (s0 : State) : Effect → Result
  | .ok (true, t) => .next t
  | .ok (false, t) => advance o.arity t
  | .error e => settle (some o) s0 e

end Sys2Proof.Machine
end

