-- ==== Sys2Proof/Machine/Operands.lean ====
section
/-! DEFINITION. The operand resolver (40_engine_and_operands R150 to R155, 42_heap R181,
46_control_transfer R230). None of these writes any state. `j` is the operand's position. -/

namespace Sys2Proof.Machine

/-- The register of an Offset's base (30_encoding R110). -/
def baseReg : Base → Reg
  | .bp => .bp
  | .sp => .sp

/-- The Storable of an Immediate, unchanged (40_engine_and_operands R151). -/
def immValue : Imm → Storable
  | .int n => .int n
  | .char c => .char c
  | .bool b => .bool b

/-- `stack_index(Off(b, d), j)` (40_engine_and_operands R150): the exact sum, checked against the stack. -/
def stackIndex (s : State) (b : Base) (d : Word64) (j : Fin 3) : Eff Nat := do
  let n ← rdNum s (baseReg b) j
  let i := n.toInt + d.toInt
  if i < 0 ∨ (s.cfg.stackSize : Int) ≤ i then raise s .stackOutOfBounds j none
  else .ok i.toNat

/-- `is_value(o)` (40_engine_and_operands R151). -/
def isValue : Operand → Bool
  | .reg _ => true
  | .off _ _ => true
  | .imm _ => true
  | .addr _ _ => false

/-- The shape test of a value operand at the head of an effect function. -/
def needValue (s : State) (x : Operand) (j : Fin 3) : Eff Unit :=
  if isValue x then .ok () else raise s .unsupportedOperand j none

/-- The content a rule needs: `EmptySlot` when there is none (60_exceptions R253). -/
def needSlot (s : State) (v : Slot) (j : Fin 3) : Eff Storable :=
  match v with
  | some x => .ok x
  | none => raise s .emptySlot j none

/-- `val(o, j)` (40_engine_and_operands R151). -/
def value (s : State) (x : Operand) (j : Fin 3) : Eff Storable :=
  match x with
  | .reg r => rd s r j
  | .imm v => .ok (immValue v)
  | .off b d => do
    let i ← stackIndex s b d j
    needSlot s (memRead s.stack i) j
  | .addr _ _ => raise s .unsupportedOperand j none

/-- `dstreg(o, j)` (40_engine_and_operands R152): a register other than ZF. -/
def dstReg (s : State) (x : Operand) (j : Fin 3) : Eff Reg :=
  match x with
  | .reg r => if r = .zf then raise s .unsupportedOperand j none else .ok r
  | .imm _ => raise s .unsupportedOperand j none
  | .off _ _ => raise s .unsupportedOperand j none
  | .addr _ _ => raise s .unsupportedOperand j none

/-- The registers of class Special (10_state R30). -/
def isSpecial : Reg → Bool
  | .pc | .bp | .sp | .hp => true
  | .r1 | .r2 | .r3 | .a1 | .a2 | .zf => false

/-- `coerce(r, v, j)` (40_engine_and_operands R153): a Special register takes an Address, an Integer becomes
one; the other registers take any Storable unchanged. -/
def coerce (s : State) (r : Reg) (v : Storable) (j : Fin 3) : Eff Storable :=
  if isSpecial r then
    match numBits v with
    | some n => .ok (.addr n)
    | none => raise s .typeMismatch j (some r)
  else .ok v

/-- `is_heapaddr(o)` (42_heap R181). -/
def isHeapAddr : Operand → Bool
  | .reg _ => true
  | .addr .heap _ => true
  | .addr .prog _ => false
  | .imm _ => false
  | .off _ _ => false

/-- The shape test of a heap address operand at the head of an effect function. -/
def needHeapAddr (s : State) (x : Operand) (j : Fin 3) : Eff Unit :=
  if isHeapAddr x then .ok () else raise s .unsupportedOperand j none

/-- The bounds check of a heap address: `[0, HeapSize)`, not HP (42_heap R181, 20_memory R80). -/
def heapIndex (s : State) (a : Word64) (j : Fin 3) : Eff Nat :=
  if a.toInt < 0 ∨ (s.cfg.heapSize : Int) ≤ a.toInt then raise s .heapOutOfBounds j none
  else .ok a.toInt.toNat

/-- The Address a register holds; an Integer, Char or Bool is not coerced (42_heap R181). -/
def needAddr (s : State) (r : Reg) (v : Storable) (j : Fin 3) : Eff Word64 :=
  match v with
  | .addr a => .ok a
  | .int _ => raise s .typeMismatch j (some r)
  | .char _ => raise s .typeMismatch j (some r)
  | .bool _ => raise s .typeMismatch j (some r)

/-- `heapaddr(o, j)` (42_heap R181). -/
def heapAddr (s : State) (x : Operand) (j : Fin 3) : Eff Nat :=
  match x with
  | .reg r => do
    let v ← rd s r j
    let a ← needAddr s r v j
    heapIndex s a j
  | .addr .heap a => heapIndex s a j
  | .addr .prog _ => raise s .unsupportedOperand j none
  | .imm _ => raise s .unsupportedOperand j none
  | .off _ _ => raise s .unsupportedOperand j none

/-- `target(o, j)` (46_control_transfer R230): a program address in `[0, ProgLen]`. -/
def target (s : State) (x : Operand) (j : Fin 3) : Eff Word64 :=
  match x with
  | .addr .prog t =>
    if t.toInt < 0 ∨ (s.progLen : Int) < t.toInt then raise s .unsupportedOperand j none
    else .ok t
  | .addr .heap _ => raise s .unsupportedOperand j none
  | .reg _ => raise s .unsupportedOperand j none
  | .imm _ => raise s .unsupportedOperand j none
  | .off _ _ => raise s .unsupportedOperand j none

end Sys2Proof.Machine
end

