-- ==== Sys2Proof/Machine/Flags.lean ====
section
/-! DEFINITION. The flag register update logic: ZF is the only flag (10_state R42), written by ADD and SUB
(43_arithmetic R198) and by the compares (45_compare R220), read by JE and JNE (46_control_transfer R232,
R233). -/

namespace Sys2Proof.Machine

/-- `x[ZF] <- Bool(b)`. -/
def writeZf (s : State) (b : Bool) : State :=
  s.setReg .zf (some (.bool b))

/-- `res = 0` of 43_arithmetic R198: from the number alone, after the wrap. -/
def isZero (res : Word64) : Bool := decide (res.toInt = 0)

/-- `a = b` of 45_compare R221: same variant and same payload (00_scope R10). -/
def sameValue (a b : Storable) : Bool := decide (a = b)

/-- The type tests of LT and LE (45_compare R223, R224), then the two numbers: operand 1 an `Int` or `Addr`,
operand 2 of the same variant. -/
def orderedPair (s : State) (a b : Storable) : Eff (Word64 × Word64) :=
  match a, b with
  | .int m, .int n => .ok (m, n)
  | .addr m, .addr n => .ok (m, n)
  | .int _, _ => raise s .typeMismatch 2 none
  | .addr _, _ => raise s .typeMismatch 2 none
  | .char _, _ => raise s .typeMismatch 1 none
  | .bool _, _ => raise s .typeMismatch 1 none

/-- `z = Bool(b)` of 46_control_transfer R232, R233, `z` read by `rd(ZF)`. -/
def zfIs (s : State) (b : Bool) : Eff Bool := do
  let z ← rd s .zf 0
  .ok (sameValue z (.bool b))

end Sys2Proof.Machine
end

