-- ==== Sys2Proof/Machine/Engine.lean ====
section
/-! DEFINITION. What the engine does around every effect function (40_engine_and_operands R140, R142, R143,
R146), shared by all meanings. -/

namespace Sys2Proof.Machine

/-- The nine opcodes without an effect function in the source (00_scope R5). -/
def isExtOpcode : Opcode → Bool
  | .call | .ret | .jmp | .je | .jne | .eq | .ne | .lt | .le => true
  | .nop | .mov | .push | .pop | .alloc | .store | .load | .add | .sub => false

/-- `dispatch_check(o)` (40_engine_and_operands R142), made before any operand word is looked at. -/
def dispatchCheck (s : State) (o : Opcode) : Eff Unit :=
  if isExtOpcode o && !s.cfg.ext then raise s .unimplementedOpcode 0 none else .ok ()

/-- The shape test of the word at operand position `j` (40_engine_and_operands R143): an opcode word or an
`Invalid` word there is `UnsupportedWord`. -/
def needOperand (s : State) (w : Word) (j : Fin 3) : Eff Operand :=
  match w with
  | .operand x => .ok x
  | .op _ => raise s .unsupportedWord j none
  | .invalid => raise s .unsupportedWord j none

/-- `p = num(rd(PC))` (40_engine_and_operands R140). -/
def currentPc (s : State) : Eff Word64 := rdNum s .pc 0

/-- An instruction of format OP0 (30_encoding R100): `eff` is its effect function on `p`. -/
def run0 (o : Opcode) (s : State) (eff : Word64 → Effect) : Result :=
  conclude o s do
    let p ← currentPc s
    dispatchCheck s o
    eff p

/-- An instruction of format OP1: `eff` is its effect function on `p` and `o1`. -/
def run1 (o : Opcode) (w1 : Word) (s : State) (eff : Word64 → Operand → Effect) : Result :=
  conclude o s do
    let p ← currentPc s
    dispatchCheck s o
    let x ← needOperand s w1 1
    eff p x

/-- An instruction of format OP2: `eff` is its effect function on `p`, `o1` and `o2`. -/
def run2 (o : Opcode) (w1 w2 : Word) (s : State) (eff : Word64 → Operand → Operand → Effect) : Result :=
  conclude o s do
    let p ← currentPc s
    dispatchCheck s o
    let x ← needOperand s w1 1
    let y ← needOperand s w2 2
    eff p x y

end Sys2Proof.Machine
end

