-- ==== Sys2Proof/Machine/Arith.lean ====
section
/-! DEFINITION. ADD and SUB (43_arithmetic R195 to R199). -/

namespace Sys2Proof.Machine

/-- The second operand of ADD and SUB: an Immediate word, an Integer (43_arithmetic R195). -/
def needImmInt (s : State) (x : Operand) (j : Fin 3) : Eff Word64 :=
  match x with
  | .imm (.int n) => .ok n
  | .imm (.char _) => raise s .typeMismatch j none
  | .imm (.bool _) => raise s .typeMismatch j none
  | .reg _ => raise s .unsupportedOperand j none
  | .off _ _ => raise s .unsupportedOperand j none
  | .addr _ _ => raise s .unsupportedOperand j none

/-- The result in the variant the destination has, and its number (43_arithmetic R196, R197): `f` on the exact
numbers, wrapped to 64 bits (R199). -/
def arithResult (s : State) (r : Reg) (f : Int → Int → Int) (d : Storable) (n : Word64) :
    Eff (Storable × Word64) :=
  match d with
  | .int m => .ok (.int (wrapW (f m.toInt n.toInt)), wrapW (f m.toInt n.toInt))
  | .addr m => .ok (.addr (wrapW (f m.toInt n.toInt)), wrapW (f m.toInt n.toInt))
  | .char _ => raise s .typeMismatch 1 (some r)
  | .bool _ => raise s .typeMismatch 1 (some r)

/-- What ADD and SUB share (43_arithmetic R195): the destination is written, then ZF. -/
def arith (s : State) (f : Int → Int → Int) (x y : Operand) : Effect := do
  let r ← dstReg s x 1
  let n ← needImmInt s y 2
  let d ← rd s r 1
  let (v, res) ← arithResult s r f d n
  .ok (false, writeZf (s.setReg r (some v)) (isZero res))

/-- ADD (43_arithmetic R196). -/
def execAdd (o1 o2 : Word) (s : State) : Result :=
  run2 .add o1 o2 s fun _ x y => arith s (fun m n => m + n) x y

/-- SUB (43_arithmetic R197): destination minus immediate. -/
def execSub (o1 o2 : Word) (s : State) : Result :=
  run2 .sub o1 o2 s fun _ x y => arith s (fun m n => m - n) x y

end Sys2Proof.Machine
end

