-- ==== Sys2Proof/Machine/Compare.lean ====
section
/-! DEFINITION. EQ, NE, LT and LE (45_compare R220 to R225). With `EXT = false` the shared head of `run2`
raises `UnimplementedOpcode` (40_engine_and_operands R142). -/

namespace Sys2Proof.Machine

/-- The two value operands of a compare, shapes first (45_compare R221). -/
def twoValues (s : State) (x y : Operand) : Eff (Storable × Storable) := do
  needValue s x 1
  needValue s y 2
  let a ← value s x 1
  let b ← value s y 2
  .ok (a, b)

/-- EQ (45_compare R221). -/
def execEq (o1 o2 : Word) (s : State) : Result :=
  run2 .eq o1 o2 s fun _ x y => do
    let (a, b) ← twoValues s x y
    .ok (false, writeZf s (sameValue a b))

/-- NE (45_compare R222). -/
def execNe (o1 o2 : Word) (s : State) : Result :=
  run2 .ne o1 o2 s fun _ x y => do
    let (a, b) ← twoValues s x y
    .ok (false, writeZf s (!sameValue a b))

/-- LT (45_compare R223): a signed comparison. -/
def execLt (o1 o2 : Word) (s : State) : Result :=
  run2 .lt o1 o2 s fun _ x y => do
    let (a, b) ← twoValues s x y
    let (m, n) ← orderedPair s a b
    .ok (false, writeZf s (decide (m.toInt < n.toInt)))

/-- LE (45_compare R224): a signed comparison. -/
def execLe (o1 o2 : Word) (s : State) : Result :=
  run2 .le o1 o2 s fun _ x y => do
    let (a, b) ← twoValues s x y
    let (m, n) ← orderedPair s a b
    .ok (false, writeZf s (decide (m.toInt ≤ n.toInt)))

end Sys2Proof.Machine
end

