-- ==== Sys2Proof/Machine/Control.lean ====
section
/-! DEFINITION. JMP, JE, JNE, CALL and RET (46_control_transfer R229 to R235). With `EXT = false` the shared
heads of `run0` and `run1` raise `UnimplementedOpcode` (40_engine_and_operands R142). -/

namespace Sys2Proof.Machine

/-- `x[PC] <- Addr(t)`, a taken transfer (46_control_transfer R231). -/
def jumpTo (s : State) (t : Word64) : Effect :=
  .ok (true, s.setReg .pc (some (.addr t)))

/-- A conditional jump, taken when ZF holds `Bool(b)` (46_control_transfer R232, R233); the target is tested
whether or not the jump is taken. -/
def jumpIf (s : State) (b : Bool) (x : Operand) : Effect := do
  let t ← target s x 1
  let c ← zfIs s b
  if c then jumpTo s t else .ok (false, s)

/-- JMP (46_control_transfer R231). -/
def execJmp (o1 : Word) (s : State) : Result :=
  run1 .jmp o1 s fun _ x => do
    let t ← target s x 1
    jumpTo s t

/-- JE (46_control_transfer R232). -/
def execJe (o1 : Word) (s : State) : Result :=
  run1 .je o1 s fun _ x => jumpIf s true x

/-- JNE (46_control_transfer R233). -/
def execJne (o1 : Word) (s : State) : Result :=
  run1 .jne o1 s fun _ x => jumpIf s false x

/-- CALL (46_control_transfer R234): the index of the word after the CALL is pushed. -/
def execCall (o1 : Word) (s : State) : Result :=
  run1 .call o1 s fun p x => do
    let t ← target s x 1
    let u ← push s (.addr (wrapW (p.toInt + 2)))
    jumpTo u t

/-- RET (46_control_transfer R235): the popped Address goes into PC, with no advance. -/
def execRet (s : State) : Result :=
  run0 .ret s fun _ => do
    let (n, v) ← popRead s
    let u ← coerce s .pc v 0
    .ok (true, (popCommit s n).setReg .pc (some u))

end Sys2Proof.Machine
end

