-- ==== Sys2Proof/Machine/Heap.lean ====
section
/-! DEFINITION. ALLOC, STORE and LOAD (42_heap R180, R182, R184). -/

namespace Sys2Proof.Machine

/-- The size an ALLOC names: an Integer (42_heap R180). -/
def needInt (s : State) (v : Storable) (j : Fin 3) : Eff Word64 :=
  match v with
  | .int n => .ok n
  | .char _ => raise s .typeMismatch j none
  | .bool _ => raise s .typeMismatch j none
  | .addr _ => raise s .typeMismatch j none

/-- The part of ALLOC after its operand is resolved (42_heap R180): HP is advanced before the push. -/
def allocate (s : State) (n : Word64) : Effect := do
  let h ← rdNum s .hp 0
  if n.toInt < 0 ∨ h.toInt < 0 ∨ (s.cfg.heapSize : Int) < h.toInt + n.toInt then
    raise s .outOfMemory 0 none
  else
    let t ← push (s.setReg .hp (some (.addr (wrapW (h.toInt + n.toInt))))) (.addr h)
    .ok (false, t)

/-- ALLOC (42_heap R180). -/
def execAlloc (o1 : Word) (s : State) : Result :=
  run1 .alloc o1 s fun _ x => do
    needValue s x 1
    let v ← value s x 1
    let n ← needInt s v 1
    allocate s n

/-- STORE (42_heap R182). -/
def execStore (o1 o2 : Word) (s : State) : Result :=
  run2 .store o1 o2 s fun _ x y => do
    needHeapAddr s x 1
    needValue s y 2
    let a ← heapAddr s x 1
    let v ← value s y 2
    .ok (false, s.writeHeap a (some v))

/-- LOAD (42_heap R184). -/
def execLoad (o1 o2 : Word) (s : State) : Result :=
  run2 .load o1 o2 s fun _ x y => do
    let r ← dstReg s x 1
    needHeapAddr s y 2
    let a ← heapAddr s y 2
    let v ← needSlot s (memRead s.heap a) 2
    let u ← coerce s r v 1
    .ok (false, s.setReg r (some u))

end Sys2Proof.Machine
end

