-- ==== Sys2Proof/Machine/Move.lean ====
section
/-! DEFINITION. MOV (44_move R210, R211). -/

namespace Sys2Proof.Machine

/-- MOV (44_move R210). -/
def execMov (o1 o2 : Word) (s : State) : Result :=
  run2 .mov o1 o2 s fun _ x y => do
    let r ← dstReg s x 1
    needValue s y 2
    let v ← value s y 2
    let u ← coerce s r v 1
    .ok (false, s.setReg r (some u))

end Sys2Proof.Machine
end

