-- ==== Sys2Proof/Machine/Nop.lean ====
section
/-! DEFINITION. NOP (40_engine_and_operands R160). -/

namespace Sys2Proof.Machine

/-- NOP: nothing, then the advance (40_engine_and_operands R160). -/
def execNop (s : State) : Result :=
  run0 .nop s fun _ => .ok (false, s)

end Sys2Proof.Machine
end

