-- ==== Sys2Proof/Machine/Stack.lean ====
section
/-! DEFINITION. PUSH and POP (41_stack R172, R173). -/

namespace Sys2Proof.Machine

/-- PUSH (41_stack R172): the operand is resolved before SP moves (40_engine_and_operands R145). -/
def execPush (o1 : Word) (s : State) : Result :=
  run1 .push o1 s fun _ x => do
    needValue s x 1
    let v ← value s x 1
    let t ← push s v
    .ok (false, t)

/-- POP (41_stack R173): the destination register is written last. -/
def execPop (o1 : Word) (s : State) : Result :=
  run1 .pop o1 s fun _ x => do
    let r ← dstReg s x 1
    let (n, v) ← popRead s
    let u ← coerce s r v 1
    .ok (false, (popCommit s n).setReg r (some u))

end Sys2Proof.Machine
end

