-- ==== Sys2Proof/Machine/Dispatch.lean ====
section
/-! DEFINITION. The dispatch table (40_engine_and_operands R144): one arm per constructor of `Instr`. -/

namespace Sys2Proof.Machine

def exec (i : Instr) (s : State) : Host.Outcome State Fault Refusal :=
  match i with
  | .nop => Sys2Proof.Machine.execNop s
  | .mov o1 o2 => Sys2Proof.Machine.execMov o1 o2 s
  | .push o1 => Sys2Proof.Machine.execPush o1 s
  | .pop o1 => Sys2Proof.Machine.execPop o1 s
  | .alloc o1 => Sys2Proof.Machine.execAlloc o1 s
  | .store o1 o2 => Sys2Proof.Machine.execStore o1 o2 s
  | .load o1 o2 => Sys2Proof.Machine.execLoad o1 o2 s
  | .call o1 => Sys2Proof.Machine.execCall o1 s
  | .ret => Sys2Proof.Machine.execRet s
  | .add o1 o2 => Sys2Proof.Machine.execAdd o1 o2 s
  | .sub o1 o2 => Sys2Proof.Machine.execSub o1 o2 s
  | .jmp o1 => Sys2Proof.Machine.execJmp o1 s
  | .je o1 => Sys2Proof.Machine.execJe o1 s
  | .jne o1 => Sys2Proof.Machine.execJne o1 s
  | .eq o1 o2 => Sys2Proof.Machine.execEq o1 o2 s
  | .ne o1 o2 => Sys2Proof.Machine.execNe o1 o2 s
  | .lt o1 o2 => Sys2Proof.Machine.execLt o1 o2 s
  | .le o1 o2 => Sys2Proof.Machine.execLe o1 o2 s

end Sys2Proof.Machine
end

