-- ==== Sys2Proof/Machine/Fetch.lean ====
section
/-! DEFINITION. Fetching an instruction (40_engine_and_operands R140 to R143), and placing a program's words
where the fetch reads them. -/

namespace Sys2Proof.Machine

/-- `fetch_opcode(p)` (40_engine_and_operands R141), for `p < ProgLen`. -/
def fetchOpcode (s : State) (p : Word64) : Eff Opcode :=
  if p.toInt < 0 then raise s .unsupportedWord 0 none
  else
    match s.progWord p.toInt.toNat with
    | .op o => .ok o
    | .operand _ => raise s .unsupportedWord 0 none
    | .invalid => raise s .unsupportedWord 0 none

/-- `fetch_operands(p, k)` (40_engine_and_operands R143) for a `p` that is a program index: the truncation
test, then the words at `p + 1` and `p + 2`. Their shapes are tested at the head of the meaning
(`needOperand`), before anything else the instruction does (log 8). -/
def fetchOperands (s : State) (p : Word64) (o : Opcode) : Eff Instr :=
  if (s.progLen : Int) ≤ p.toInt + o.arity then raise s .unsupportedWord 0 none
  else .ok (Instr.ofWords o (s.progWord (p.toInt.toNat + 1)) (s.progWord (p.toInt.toNat + 2)))

/-- What the first lines of `step()` (40_engine_and_operands R140) come to. -/
inductive Fetched where
  /-- The engine is Halted or Faulted: the step changes nothing. -/
  | idle
  /-- The fetch stopped, with the opcode decoded so far. -/
  | stop (o : Option Opcode) (e : Stop)
  /-- The instruction to run. -/
  | run (i : Instr)
deriving DecidableEq, Repr

/-- The lines of `step()` after the Halted test: opcode, dispatch check, operand words. -/
def fetchAt (s : State) (p : Word64) : Fetched :=
  match fetchOpcode s p with
  | .error e => .stop none e
  | .ok o =>
    match dispatchCheck s o with
    | .error e => .stop (some o) e
    | .ok () =>
      match fetchOperands s p o with
      | .error e => .stop (some o) e
      | .ok i => .run i

/-- The lines of `step()` before the effect function (40_engine_and_operands R140). -/
def fetch (s : State) : Fetched :=
  if s.fault.isSome then .idle
  else
    match currentPc s with
    | .error e => .stop none e
    | .ok p => if (s.progLen : Int) ≤ p.toInt then .idle else fetchAt s p

/-- `ws` in place of the words of `prog` from index `p` on; words `prog` does not have before `p` are 0. -/
def spliceAt (prog : List RawWord) (p : Nat) (ws : List RawWord) : List RawWord :=
  prog.take p ++ List.replicate (p - prog.length) 0 ++ ws ++ prog.drop (p + ws.length)

/-- The host's load of words at the program counter (70_reset_and_hazards R295; log 4): `Prog` holds them
there, there is no fault record, and a PC that names no program index becomes `Addr(0)`. -/
def State.withWordsAtPc (s : State) (ws : List RawWord) : State :=
  match (s.reg .pc).bind numBits with
  | some n =>
    if n.toInt < 0 then
      { s.setReg .pc (some (.addr 0)) with fault := none, prog := spliceAt s.prog 0 ws }
    else { s with fault := none, prog := spliceAt s.prog n.toInt.toNat ws }
  | none => { s.setReg .pc (some (.addr 0)) with fault := none, prog := spliceAt s.prog 0 ws }

end Sys2Proof.Machine
end

