-- ==== Sys2Proof/Machine/Step.lean ====
section
/-! DEFINITION. The step of the engine (40_engine_and_operands R140, 70_reset_and_hazards R302). -/

namespace Sys2Proof.Machine

/-- One step: a Halted or Faulted engine stays as it is, a fault of the fetch is taken, and otherwise the
fetched instruction runs (40_engine_and_operands R140). -/
def step (s : State) : Host.Outcome State Fault Refusal :=
  match fetch s with
  | .idle => .next s
  | .stop o e => settle o s e
  | .run i => exec i s

/-- `s` with the words of a pattern of spec/opcode_table.json where `step` fetches its next instruction
(log 4). -/
def State.withFetchWord (s : State) (nbits w : Nat) : State :=
  s.withWordsAtPc (tableWords nbits w)

end Sys2Proof.Machine
end

