-- ==== Sys2Proof/Machine/HostPort.lean ====
section
/-! DEFINITION. The host's interface beside the step request (70_reset_and_hazards R290, R300 to R305): the
run state, the status outputs, the inspection port, the reset request. None is reached by an instruction. -/

namespace Sys2Proof.Machine

/-! ## Run state (60_exceptions R258) -/

inductive RunState where
  | running | halted | faulted
deriving DecidableEq, Repr

/-- `status`: a function of the state, not stored. -/
def State.status (s : State) : RunState :=
  if s.fault.isSome then .faulted
  else
    match (s.reg .pc).bind numBits with
    | some n => if (s.progLen : Int) ≤ n.toInt then .halted else .running
    | none => .running

/-! ## The slot layout (10_state R57) -/

/-- Bits [65:64]. -/
def typeBits : Storable → BitVec 2
  | .int _ => 0
  | .char _ => 1
  | .bool _ => 2
  | .addr _ => 3

/-- Bits [63:0]. -/
def payloadBits : Storable → BitVec 64
  | .int n => n
  | .char c => c.setWidth 64
  | .bool b => if b then 1 else 0
  | .addr n => n

/-- The 67 bits of a Slot: `valid`, `type`, `payload`; all zero when `empty`. -/
def slotBits : Slot → BitVec 67
  | none => 0
  | some v => (1#1 ++ typeBits v) ++ payloadBits v

/-! ## The inspection port (70_reset_and_hazards R304) -/

/-- A register, as 67 bits. -/
def inspectReg (s : State) (r : Reg) : BitVec 67 := slotBits (s.reg r)

/-- A stack slot `0 .. StackSize-1`, as 67 bits; there is no slot beyond. -/
def inspectStack (s : State) (i : Nat) : Option (BitVec 67) :=
  if i < s.cfg.stackSize then some (slotBits (memRead s.stack i)) else none

/-- A heap slot `0 .. HeapSize-1`, as 67 bits; there is no slot beyond. -/
def inspectHeap (s : State) (i : Nat) : Option (BitVec 67) :=
  if i < s.cfg.heapSize then some (slotBits (memRead s.heap i)) else none

/-! ## The status outputs (70_reset_and_hazards R303) -/

/-- The code of `status`. -/
def statusCode : RunState → BitVec 2
  | .running => 0
  | .halted => 1
  | .faulted => 2

/-- The code of a fault kind (60_exceptions R250). -/
def FaultKind.code : FaultKind → BitVec 4
  | .typeMismatch => 1
  | .nilRegister => 2
  | .unsupportedOperand => 3
  | .unsupportedWord => 4
  | .stackOverflow => 5
  | .stackUnderflow => 6
  | .heapOutOfBounds => 7
  | .outOfMemory => 8
  | .stackOutOfBounds => 9
  | .emptySlot => 10
  | .unimplementedOpcode => 11

/-- The status outputs. -/
structure StatusOutputs where
  status : BitVec 2
  faultKind : BitVec 4
  faultPc : BitVec 64
  faultOpcode : BitVec 5
  faultOperand : BitVec 2
  faultReg : BitVec 4
deriving DecidableEq, Repr

/-- The status outputs of a state. The spec states no value of `fault_pc` and `fault_operand` while there is no
fault: `idlePc` and `idleOperand` are those two values, free (DESIGN CHOICE, safe, log 12). -/
def statusOutputs (s : State) (idlePc : BitVec 64) (idleOperand : BitVec 2) : StatusOutputs :=
  match s.fault with
  | none =>
    { status := statusCode s.status, faultKind := 0, faultPc := idlePc, faultOpcode := 31,
      faultOperand := idleOperand, faultReg := 15 }
  | some f =>
    { status := statusCode s.status, faultKind := f.kind.code, faultPc := f.pc,
      faultOpcode := (match f.opcode with | some o => BitVec.ofNat 5 o.number | none => 31),
      faultOperand := BitVec.ofNat 2 f.operand.val,
      faultReg := (match f.reg with | some r => BitVec.ofNat 4 r.number | none => 15) }

/-! ## The reset request (70_reset_and_hazards R290) -/

/-- A reset takes the configuration and the program as they stand. -/
def State.hostReset (s : State) : State := State.resetWith s.cfg s.prog

end Sys2Proof.Machine
end

