-- ==== Sys2Proof/Safety.lean ====
section
/-! DEFINITION. The terms claims are stated in: the invariant of every run, what a finished run is, which fault
an instruction can raise, and the shapes of the states an instruction leaves. -/

namespace Sys2Proof.Machine

/-! ## The invariant -/

/-- The Slot holds an `Addr`. -/
def holdsAddr : Slot → Bool
  | some (.addr _) => true
  | _ => false

/-- The Slot holds a `Bool`. -/
def holdsBool : Slot → Bool
  | some (.bool _) => true
  | _ => false

/-- What holds at every point of a run: the bounds of 00_scope R7, the contents of the Special registers
(10_state R35) and of ZF (R42), the canonical form and the bounds of the two memories, and PC at the faulting
instruction once a fault is recorded (60_exceptions R257). -/
structure RunInv (s : State) : Prop where
  cfgValid : s.cfg.valid = true
  progBound : s.progLen ≤ 2 ^ 63 - 4
  pcAddr : holdsAddr s.pc = true
  spAddr : holdsAddr s.sp = true
  hpAddr : holdsAddr s.hp = true
  bpAddr : s.bp = none ∨ holdsAddr s.bp = true
  zfBool : s.zf = none ∨ holdsBool s.zf = true
  stackWf : Memory.wf s.stack = true
  stackWithin : Memory.within s.cfg.stackSize s.stack = true
  heapWf : Memory.wf s.heap = true
  heapWithin : Memory.within s.cfg.heapSize s.heap = true
  faultAtPc : ∀ f, s.fault = some f → s.pc = some (.addr f.pc)

/-- A successful end of a run: Halted. A Faulted state is never one (60_exceptions R259). -/
def Finished (s : State) : Prop := s.status = .halted

/-- The step of `s` ends in a state of the machine, not in a stop of the model's own. -/
def Completes (s : State) : Prop := ∃ t, step s = .next t

/-! ## Which instruction can raise which fault (60_exceptions R263) -/

/-- The table of 60_exceptions R263, with the two fetch faults any step can raise: `UnsupportedWord`, and
`UnimplementedOpcode` for the nine opcodes of 00_scope R5. -/
def mayRaise : Opcode → FaultKind → Bool
  | _, .unsupportedWord => true
  | o, .unimplementedOpcode => isExtOpcode o
  | .nop, _ => false
  | .mov, k => k ∈ [.typeMismatch, .nilRegister, .unsupportedOperand, .stackOutOfBounds, .emptySlot]
  | .push, k => k ∈ [.nilRegister, .unsupportedOperand, .stackOverflow, .stackOutOfBounds, .emptySlot]
  | .pop, k => k ∈ [.typeMismatch, .unsupportedOperand, .stackUnderflow, .stackOutOfBounds, .emptySlot]
  | .alloc, k =>
    k ∈ [.typeMismatch, .nilRegister, .unsupportedOperand, .stackOverflow, .outOfMemory,
      .stackOutOfBounds, .emptySlot]
  | .store, k =>
    k ∈ [.typeMismatch, .nilRegister, .unsupportedOperand, .heapOutOfBounds, .stackOutOfBounds, .emptySlot]
  | .load, k => k ∈ [.typeMismatch, .nilRegister, .unsupportedOperand, .heapOutOfBounds, .emptySlot]
  | .add, k | .sub, k => k ∈ [.typeMismatch, .nilRegister, .unsupportedOperand]
  | .eq, k | .ne, k => k ∈ [.nilRegister, .unsupportedOperand, .stackOutOfBounds, .emptySlot]
  | .lt, k | .le, k => k ∈ [.typeMismatch, .nilRegister, .unsupportedOperand, .stackOutOfBounds, .emptySlot]
  | .jmp, k => k ∈ [.unsupportedOperand]
  | .je, k | .jne, k => k ∈ [.nilRegister, .unsupportedOperand]
  | .call, k => k ∈ [.unsupportedOperand, .stackOverflow, .stackOutOfBounds]
  | .ret, k => k ∈ [.typeMismatch, .stackUnderflow, .stackOutOfBounds, .emptySlot]

/-! ## Shapes of states -/

/-- `s` with PC at `Addr(wrapW(z))`. -/
def State.pcAt (s : State) (z : Int) : State := s.setReg .pc (some (.addr (wrapW z)))

/-- `s` with a fault record (60_exceptions R256). -/
def State.withFault (s : State) (k : FaultKind) (p : Word64) (o : Option Opcode) (j : Fin 3)
    (r : Option Reg) : State :=
  { s with fault := some { kind := k, pc := p, opcode := o, operand := j, reg := r } }

/-- PC holds `Addr(p)`, as at every point of a run (10_state R35, R36). -/
def State.atPc (s : State) (p : Word64) : Prop := s.reg .pc = some (.addr p)

/-- `EXT = true`, or the opcode is none of the nine of 00_scope R5. -/
def State.enabled (s : State) (o : Opcode) : Prop := isExtOpcode o = true → s.cfg.ext = true

/-- SP holds `Addr(n)`. -/
def State.atSp (s : State) (n : Word64) : Prop := s.reg .sp = some (.addr n)

/-! ## Which registers an instruction writes besides PC (10_state R43) -/

/-- The column "written as dst" of 10_state R43: the register a destination operand names. -/
def isDestination (i : Instr) (r : Reg) : Bool :=
  match i with
  | .mov o1 _ | .pop o1 | .load o1 _ | .add o1 _ | .sub o1 _ => decide (o1 = .operand (.reg r))
  | .nop | .push _ | .alloc _ | .store _ _ | .call _ | .ret | .jmp _ | .je _ | .jne _
  | .eq _ _ | .ne _ _ | .lt _ _ | .le _ _ => false

/-- The column "implicit write" of 10_state R43, PC left out. -/
def implicitlyWrites : Opcode → Reg → Bool
  | .push, .sp | .pop, .sp | .alloc, .sp | .call, .sp | .ret, .sp => true
  | .alloc, .hp => true
  | .add, .zf | .sub, .zf | .eq, .zf | .ne, .zf | .lt, .zf | .le, .zf => true
  | _, _ => false

end Sys2Proof.Machine
end

