-- ==== Sys2Proof/Certificates/Slice0/Obligations.lean ====
section
/-! DEFINITION. The statements about the model, from the spec's rules. `s.atPc p` says that PC holds `Addr(p)`,
`s.pcAt z` is `s` with PC at `Addr(wrapW(z))`, `s.withFault k p o j r` is `s` with the fault record
`{kind = k, pc = p, opcode = o, operand = j, reg = r}`. -/

open Sys2Proof Sys2Proof.Machine

/-! ## Reset, run state, host interface -/

/-- 10_state R50, R51: what reset leaves, for every configuration within the bounds (`Config.valid`, log 10) and
every program; without a `BP_RESET` of the platform's own, BP is `empty`. -/
def Obligations.ResetLeavesTheStatedValues : Prop :=
  State.reset.reg .bp = none ∧
  ∀ (c : Config) (prog : List RawWord), c.valid = true →
    let s := State.resetWith c prog
    s.reg .pc = some (.addr 0) ∧
    (∃ n : Word64, s.reg .sp = some (.addr n) ∧ n.toInt = c.stackSize) ∧
    s.reg .hp = some (.addr 0) ∧ s.reg .bp = c.bpReset ∧
    s.reg .r1 = none ∧ s.reg .r2 = none ∧ s.reg .r3 = none ∧ s.reg .a1 = none ∧ s.reg .a2 = none ∧
    s.reg .zf = none ∧ (∀ a, memRead s.stack a = none) ∧ (∀ a, memRead s.heap a = none) ∧
    s.fault = none ∧ s.status = (if prog.length = 0 then .halted else .running)

/-- The invariant holds at reset. Derived: the spec states `BP_RESET` as any optional Storable and 10_state R35
as a derivation; that `Config.valid` asks for `empty` or an Address is the model's reading (log 10). -/
def Obligations.ResetMeetsTheInvariant : Prop :=
  (∀ (c : Config) (prog : List RawWord), c.valid = true → prog.length ≤ 2 ^ 63 - 4 →
    RunInv (State.resetWith c prog)) ∧
  RunInv State.reset

/-- 60_exceptions R258: the run state as a function of the state; a negative PC without a fault is `Running`
and its next step raises `UnsupportedWord`. -/
def Obligations.RunStateIsAFunctionOfTheState : Prop :=
  ∀ (s : State) (p : Word64), s.atPc p →
    (s.status = .faulted ↔ s.fault ≠ none) ∧
    (s.status = .halted ↔ s.fault = none ∧ (s.progLen : Int) ≤ p.toInt) ∧
    (s.status = .running ↔ s.fault = none ∧ p.toInt < s.progLen) ∧
    (s.fault = none → p.toInt < 0 → step s = .next (s.withFault .unsupportedWord p none 0 none))

/-- 60_exceptions R259, 40_engine_and_operands R140: a step in `Halted` or `Faulted` changes nothing, however
many are requested, and a Faulted state is never a successful end. -/
def Obligations.TerminalStatesStay : Prop :=
  ∀ (s : State) (k : Nat), s.status ≠ .running →
    step s = .next s ∧ core.run k s = .next s ∧ (s.fault ≠ none → ¬ Finished s)

/-- 70_reset_and_hazards R303: the status outputs. The opcode and register fields name what the record names
(31 and 15 name nothing), and the kind's code tells the kinds apart and is never 0. -/
def Obligations.StatusOutputsReportTheRecord : Prop :=
  (∀ (s : State) (f : FaultRecord) (x : BitVec 64) (y : BitVec 2), s.fault = some f →
    let o := statusOutputs s x y
    o.status = 2 ∧ o.faultKind = f.kind.code ∧ o.faultPc = f.pc ∧
    Opcode.ofNumber o.faultOpcode.toNat = f.opcode ∧ o.faultOperand.toNat = f.operand.val ∧
    Reg.ofNumber o.faultReg.toNat = f.reg) ∧
  (∀ (s : State) (x : BitVec 64) (y : BitVec 2), s.fault = none →
    let o := statusOutputs s x y
    o.status = (if s.status = .halted then 1 else 0) ∧ o.faultKind = 0 ∧ o.faultOpcode = 31 ∧
    o.faultReg = 15) ∧
  (∀ k k' : FaultKind, k.code = k'.code → k = k') ∧ (∀ k : FaultKind, 1 ≤ k.code.toNat ∧ k.code.toNat ≤ 11)

/-- 10_state R57: the 67 bits of a Slot, what the inspection port shows, and that reset clears them. -/
def Obligations.SlotLayout : Prop :=
  slotBits none = 0 ∧
  (∀ n : Word64, (slotBits (some (.int n))).toNat = 2 ^ 66 + n.toNat) ∧
  (∀ c : CharCode, (slotBits (some (.char c))).toNat = 2 ^ 66 + 2 ^ 64 + c.toNat) ∧
  (∀ b : Bool, (slotBits (some (.bool b))).toNat = 2 ^ 66 + 2 * 2 ^ 64 + b.toNat) ∧
  (∀ n : Word64, (slotBits (some (.addr n))).toNat = 2 ^ 66 + 3 * 2 ^ 64 + n.toNat) ∧
  (∀ v w : Slot, slotBits v = slotBits w → v = w) ∧
  (∀ (s : State) (r : Reg), inspectReg s r = slotBits (s.reg r)) ∧
  (∀ (s : State) (a : Nat),
    inspectStack s a = (if a < s.cfg.stackSize then some (slotBits (memRead s.stack a)) else none) ∧
    inspectHeap s a = (if a < s.cfg.heapSize then some (slotBits (memRead s.heap a)) else none)) ∧
  (∀ (c : Config) (prog : List RawWord) (a : Nat),
    slotBits (memRead (State.resetWith c prog).stack a) = 0 ∧
    slotBits (memRead (State.resetWith c prog).heap a) = 0)

/-- 00_scope R9: `wrapW(z)` is the one number of 64 signed bits congruent to `z` modulo `2^64`. -/
def Obligations.WrapIsTheCongruentNumber : Prop :=
  ∀ z n : Int, (wrapW z).toInt = n ↔ (-2 ^ 63 ≤ n ∧ n < 2 ^ 63 ∧ (2 ^ 64 : Int) ∣ n - z)

/-! ## Encoding -/

/-- 30_encoding R102, R103: the Word of every kind, by its number; which patterns are `Invalid`, with `k` the kind
and `p` the payload as numbers; and decoding and encoding one word are inverse. -/
def Obligations.WordDecodingIsInverseToEncoding : Prop :=
  (∀ o : Opcode, decodeWord (BitVec.ofNat 72 o.number) = .op o) ∧
  (∀ r : Reg, decodeWord (BitVec.ofNat 72 (0x01 * 2 ^ 64 + r.number)) = .operand (.reg r)) ∧
  (∀ n : Word64, decodeWord (BitVec.ofNat 72 (0x02 * 2 ^ 64 + n.toNat)) = .operand (.imm (.int n))) ∧
  (∀ c : CharCode, decodeWord (BitVec.ofNat 72 (0x03 * 2 ^ 64 + c.toNat)) = .operand (.imm (.char c))) ∧
  (∀ b : Bool, decodeWord (BitVec.ofNat 72 (0x04 * 2 ^ 64 + b.toNat)) = .operand (.imm (.bool b))) ∧
  (∀ d : Word64, decodeWord (BitVec.ofNat 72 (0x05 * 2 ^ 64 + d.toNat)) = .operand (.off .bp d)) ∧
  (∀ d : Word64, decodeWord (BitVec.ofNat 72 (0x06 * 2 ^ 64 + d.toNat)) = .operand (.off .sp d)) ∧
  (∀ n : Word64, decodeWord (BitVec.ofNat 72 (0x07 * 2 ^ 64 + n.toNat)) = .operand (.addr .prog n)) ∧
  (∀ n : Word64, decodeWord (BitVec.ofNat 72 (0x08 * 2 ^ 64 + n.toNat)) = .operand (.addr .heap n)) ∧
  (∀ b : RawWord, decodeWord b = .invalid ↔
    let k := b.toNat / 2 ^ 64
    let p := b.toNat % 2 ^ 64
    9 ≤ k ∨ (k = 0 ∧ 17 < p) ∨ (k = 1 ∧ 9 < p) ∨ (k = 3 ∧ p / 2 ^ 32 ≠ 0) ∨ (k = 4 ∧ p / 2 ≠ 0)) ∧
  (∀ w : Word, w ≠ .invalid → decodeWord (encodeWord w) = w) ∧
  (∀ b : RawWord, decodeWord b ≠ .invalid → encodeWord (decodeWord b) = b)

/-- DECODE AND ENCODE AGREE: a well-formed instruction is read back from its words, whatever words follow, with
every operand at every value (30_encoding R100, R103). -/
def Obligations.DecodeOfEncodeIsTheInstruction : Prop :=
  ∀ (i : Instr) (rest : List RawWord), i.wellFormed = true → decodeInstr (encode i ++ rest) = .ok (i, rest)

/-- The words of a well-formed instruction that decodes are its encoding: each instruction has one binary form,
of `1 + arity` words (30_encoding R100, R103). -/
def Obligations.EncodeOfDecodeIsTheWords : Prop :=
  ∀ (ws rest : List RawWord) (i : Instr), decodeInstr ws = .ok (i, rest) → i.wellFormed = true →
    ws = encode i ++ rest ∧ ws.length = 1 + i.opcode.arity + rest.length

/-- 30_encoding R115: written encodings decode to the instructions they stand for. -/
def Obligations.WrittenEncodingsDecode : Prop :=
  decodeInstr [0x000000000000000004, 0x020000000000000001] =
    .ok (.alloc (.operand (.imm (.int 1))), []) ∧
  decodeInstr [0x000000000000000003, 0x010000000000000004] = .ok (.pop (.operand (.reg .r1)), []) ∧
  decodeInstr [0x000000000000000005, 0x010000000000000004, 0x010000000000000005] =
    .ok (.store (.operand (.reg .r1)) (.operand (.reg .r2)), []) ∧
  decodeInstr [0x000000000000000009, 0x010000000000000004, 0x02FFFFFFFFFFFFFFFF] =
    .ok (.add (.operand (.reg .r1)) (.operand (.imm (.int (-1)))), []) ∧
  decodeInstr [0x000000000000000001, 0x010000000000000005, 0x05FFFFFFFFFFFFFFFE] =
    .ok (.mov (.operand (.reg .r2)) (.operand (.off .bp (-2))), []) ∧
  decodeInstr [0x00000000000000000B, 0x070000000000000007] =
    .ok (.jmp (.operand (.addr .prog 7)), []) ∧
  decodeInstr [0x000000000000000000] = .ok (.nop, [])

/-- The pattern of every row of the opcode table decodes to that row's opcode. Derived: 30_encoding R104 gives the
pattern of the opcode word alone; that operand words of zeros follow it, and that the instruction carries them as
opcode words of NOP, is the model's reading (DEDUCED, log 8). -/
def Obligations.OpcodeTableRowsDecode : Prop :=
  ∀ o : Opcode, decodeTableWord 72 o.number = some (Instr.ofWords o (.op .nop) (.op .nop))

/-! ## The step -/

/-- 40_engine_and_operands R140: when the words at PC decode to an instruction, a step is `exec` of it. The
advance of PC is part of `exec` (R146); nothing is added around it. -/
def Obligations.StepRunsTheDecodedInstruction : Prop :=
  ∀ (s : State) (p : Word64) (i : Instr) (rest : List RawWord), s.fault = none → s.atPc p → 0 ≤ p.toInt →
    decodeInstr (s.prog.drop p.toInt.toNat) = .ok (i, rest) → step s = exec i s

/-- The words placed for the next fetch are the instruction the next step runs. How a program comes to stand at PC
is the model's choice (log 4). -/
def Obligations.PlacedWordsRunNext : Prop :=
  ∀ (c : Config) (prog : List RawWord) (nbits w : Nat) (i : Instr), decodeTableWord nbits w = some i →
    let s := (State.resetWith c prog).withFetchWord nbits w
    step s = exec i s

/-- 40_engine_and_operands R141: a negative PC, and a word at PC that is no opcode word, raise `UnsupportedWord`
with no opcode in the record; nothing else changes. -/
def Obligations.FetchFaultsOnANonOpcode : Prop :=
  ∀ (s : State) (p : Word64), s.fault = none → s.atPc p → p.toInt < s.progLen →
    (p.toInt < 0 ∨ ∀ o, s.progWord p.toInt.toNat ≠ .op o) →
    step s = .next (s.withFault .unsupportedWord p none 0 none)

/-- 40_engine_and_operands R142: with `EXT = false` a step that finds one of the nine opcodes raises
`UnimplementedOpcode`, whatever follows the opcode word, a truncated program included. -/
def Obligations.DisabledOpcodeFaultsAtDispatch : Prop :=
  ∀ (s : State) (p : Word64) (o : Opcode), s.fault = none → s.atPc p → 0 ≤ p.toInt → p.toInt < s.progLen →
    s.progWord p.toInt.toNat = .op o → isExtOpcode o = true → s.cfg.ext = false →
    step s = .next (s.withFault .unimplementedOpcode p (some o) 0 none)

/-- 40_engine_and_operands R143: an operand word at or beyond `ProgLen`, then an opcode or `Invalid` word at
position 1, then at position 2, raises `UnsupportedWord` and changes nothing else. -/
def Obligations.OperandWordFaults : Prop :=
  ∀ (s : State) (p : Word64) (o : Opcode), s.fault = none → s.atPc p → 0 ≤ p.toInt → p.toInt < s.progLen →
    s.progWord p.toInt.toNat = .op o → s.enabled o →
    ((s.progLen : Int) ≤ p.toInt + o.arity →
      step s = .next (s.withFault .unsupportedWord p (some o) 0 none)) ∧
    (p.toInt + o.arity < s.progLen → 1 ≤ o.arity →
      (s.progWord (p.toInt.toNat + 1)).isOperand = false →
      step s = .next (s.withFault .unsupportedWord p (some o) 1 none)) ∧
    (p.toInt + o.arity < s.progLen → o.arity = 2 →
      (s.progWord (p.toInt.toNat + 1)).isOperand = true →
      (s.progWord (p.toInt.toNat + 2)).isOperand = false →
      step s = .next (s.withFault .unsupportedWord p (some o) 2 none))

/-- 45_compare R220, 46_control_transfer R229: with `EXT = false` none of the nine instructions has an effect but
the fault record, whatever its operand words are. -/
def Obligations.DisabledInstructionsOnlyFault : Prop :=
  ∀ (s : State) (p : Word64) (i : Instr), s.atPc p → isExtOpcode i.opcode = true → s.cfg.ext = false →
    exec i s = .next (s.withFault .unimplementedOpcode p (some i.opcode) 0 none)

/-! ## Operands -/

/-- 40_engine_and_operands R151 (with R150 for an Offset): what a value operand yields, in every form, and the shape
test. -/
def Obligations.ValueOperandYields : Prop :=
  ∀ (s : State) (j : Fin 3),
    (∀ x, isValue x = false ↔ ∃ a n, x = .addr a n) ∧
    (∀ r v, s.reg r = some v → value s (.reg r) j = .ok v) ∧
    (∀ r, s.reg r = none → value s (.reg r) j = .error (.raise .nilRegister j (some r) s)) ∧
    (∀ n, value s (.imm (.int n)) j = .ok (.int n)) ∧
    (∀ c, value s (.imm (.char c)) j = .ok (.char c)) ∧
    (∀ b, value s (.imm (.bool b)) j = .ok (.bool b)) ∧
    (∀ b d, s.reg (baseReg b) = none →
      value s (.off b d) j = .error (.raise .nilRegister j (some (baseReg b)) s)) ∧
    (∀ b d n, s.reg (baseReg b) = some (.addr n) →
      n.toInt + d.toInt < 0 ∨ (s.cfg.stackSize : Int) ≤ n.toInt + d.toInt →
      value s (.off b d) j = .error (.raise .stackOutOfBounds j none s)) ∧
    (∀ b d n (i : Nat), s.reg (baseReg b) = some (.addr n) → n.toInt + d.toInt = i → i < s.cfg.stackSize →
      (memRead s.stack i = none → value s (.off b d) j = .error (.raise .emptySlot j none s)) ∧
      (∀ v, memRead s.stack i = some v → value s (.off b d) j = .ok v)) ∧
    (∀ a n, value s (.addr a n) j = .error (.raise .unsupportedOperand j none s))

/-- A value operand that does not resolve ends each instruction that takes one: the fault it names is recorded and
nothing else changes (40_engine_and_operands R145, R151; 60_exceptions R260). -/
def Obligations.UnresolvedValueOperandFaults : Prop :=
  ∀ (s : State) (p : Word64) (x : Operand) (k : FaultKind) (q : Option Reg), s.atPc p →
    (value s x 1 = .error (.raise k 1 q s) →
      exec (.push (.operand x)) s = .next (s.withFault k p (some .push) 1 q) ∧
      exec (.alloc (.operand x)) s = .next (s.withFault k p (some .alloc) 1 q) ∧
      (s.cfg.ext = true → ∀ y, isValue y = true →
        exec (.eq (.operand x) (.operand y)) s = .next (s.withFault k p (some .eq) 1 q) ∧
        exec (.ne (.operand x) (.operand y)) s = .next (s.withFault k p (some .ne) 1 q) ∧
        exec (.lt (.operand x) (.operand y)) s = .next (s.withFault k p (some .lt) 1 q) ∧
        exec (.le (.operand x) (.operand y)) s = .next (s.withFault k p (some .le) 1 q))) ∧
    (value s x 2 = .error (.raise k 2 q s) →
      (∀ r, r ≠ Reg.zf →
        exec (.mov (.operand (.reg r)) (.operand x)) s = .next (s.withFault k p (some .mov) 2 q)) ∧
      (∀ y a, heapAddr s y 1 = .ok a →
        exec (.store (.operand y) (.operand x)) s = .next (s.withFault k p (some .store) 2 q)) ∧
      (s.cfg.ext = true → ∀ y v, value s y 1 = .ok v →
        exec (.eq (.operand y) (.operand x)) s = .next (s.withFault k p (some .eq) 2 q) ∧
        exec (.ne (.operand y) (.operand x)) s = .next (s.withFault k p (some .ne) 2 q) ∧
        exec (.lt (.operand y) (.operand x)) s = .next (s.withFault k p (some .lt) 2 q) ∧
        exec (.le (.operand y) (.operand x)) s = .next (s.withFault k p (some .le) 2 q)))

/-- 42_heap R181: what a heap address operand names, in every form: an index in `[0, HeapSize)` or a fault; and the
shape test. -/
def Obligations.HeapAddressOperandYields : Prop :=
  ∀ (s : State) (j : Fin 3),
    (∀ x, isHeapAddr x = true ↔ (∃ r, x = .reg r) ∨ ∃ n, x = .addr .heap n) ∧
    (∀ r, s.reg r = none → heapAddr s (.reg r) j = .error (.raise .nilRegister j (some r) s)) ∧
    (∀ r v, s.reg r = some v → (∀ a, v ≠ .addr a) →
      heapAddr s (.reg r) j = .error (.raise .typeMismatch j (some r) s)) ∧
    (∀ x (a : Word64), (x = .addr .heap a ∨ ∃ r, x = .reg r ∧ s.reg r = some (.addr a)) →
      (a.toInt < 0 ∨ (s.cfg.heapSize : Int) ≤ a.toInt →
        heapAddr s x j = .error (.raise .heapOutOfBounds j none s)) ∧
      (∀ i : Nat, a.toInt = i → i < s.cfg.heapSize → heapAddr s x j = .ok i)) ∧
    (∀ n, heapAddr s (.addr .prog n) j = .error (.raise .unsupportedOperand j none s)) ∧
    (∀ v, heapAddr s (.imm v) j = .error (.raise .unsupportedOperand j none s)) ∧
    (∀ b d, heapAddr s (.off b d) j = .error (.raise .unsupportedOperand j none s))

/-- A heap address operand that does not resolve ends STORE and LOAD with the fault it names, and nothing else
changes; STORE tests the shapes of both operands before it resolves either (42_heap R182, R184). -/
def Obligations.UnresolvedHeapAddressFaults : Prop :=
  ∀ (s : State) (p : Word64) (x : Operand) (k : FaultKind) (q : Option Reg), s.atPc p →
    (∀ y, isValue y = true → heapAddr s x 1 = .error (.raise k 1 q s) →
      exec (.store (.operand x) (.operand y)) s = .next (s.withFault k p (some .store) 1 q)) ∧
    (∀ r, r ≠ Reg.zf → heapAddr s x 2 = .error (.raise k 2 q s) →
      exec (.load (.operand (.reg r)) (.operand x)) s = .next (s.withFault k p (some .load) 2 q)) ∧
    (∀ y, isHeapAddr x = true → isValue y = false →
      exec (.store (.operand x) (.operand y)) s = .next (s.withFault .unsupportedOperand p (some .store) 2 none))

/-- 40_engine_and_operands R152: an Immediate, an Offset, an Address word or ZF as the destination of MOV, POP,
LOAD, ADD or SUB raises `UnsupportedOperand`, whatever the second operand is. -/
def Obligations.BadDestinationFaults : Prop :=
  ∀ (s : State) (p : Word64) (x y : Operand), s.atPc p → (∀ r, x = .reg r → r = .zf) →
    exec (.pop (.operand x)) s = .next (s.withFault .unsupportedOperand p (some .pop) 1 none) ∧
    exec (.mov (.operand x) (.operand y)) s = .next (s.withFault .unsupportedOperand p (some .mov) 1 none) ∧
    exec (.load (.operand x) (.operand y)) s = .next (s.withFault .unsupportedOperand p (some .load) 1 none) ∧
    exec (.add (.operand x) (.operand y)) s = .next (s.withFault .unsupportedOperand p (some .add) 1 none) ∧
    exec (.sub (.operand x) (.operand y)) s = .next (s.withFault .unsupportedOperand p (some .sub) 1 none)

/-! ## Results, instruction by instruction -/

/-- 40_engine_and_operands R160: NOP changes nothing but PC. -/
def Obligations.NopOnlyAdvances : Prop :=
  ∀ (s : State) (p : Word64), s.atPc p → exec .nop s = .next (s.pcAt (p.toInt + 1))

/-- 44_move R211: the result of MOV by destination class and source value, every row of the table. -/
def Obligations.MovResultTable : Prop :=
  ∀ (s : State) (p : Word64) (r : Reg) (y : Operand), s.atPc p →
    (∀ v, isSpecial r = false → r ≠ .zf → value s y 2 = .ok v →
      exec (.mov (.operand (.reg r)) (.operand y)) s = .next ((s.setReg r (some v)).pcAt (p.toInt + 3))) ∧
    (∀ n, isSpecial r = true → (value s y 2 = .ok (.int n) ∨ value s y 2 = .ok (.addr n)) →
      exec (.mov (.operand (.reg r)) (.operand y)) s =
        .next ((s.setReg r (some (.addr n))).pcAt ((if r = .pc then n.toInt else p.toInt) + 3))) ∧
    (∀ v, isSpecial r = true → value s y 2 = .ok v → (∃ c, v = .char c) ∨ (∃ b, v = .bool b) →
      exec (.mov (.operand (.reg r)) (.operand y)) s =
        .next (s.withFault .typeMismatch p (some .mov) 1 (some r))) ∧
    exec (.mov (.operand (.reg .zf)) (.operand y)) s =
      .next (s.withFault .unsupportedOperand p (some .mov) 1 none)

/-- 41_stack R172, R170: PUSH stores the operand, resolved before SP moves, at the decremented SP; at 0 and below
it overflows, with SP already decremented; above `StackSize`, and where the decrement wraps, the slot does not
exist. -/
def Obligations.PushOutcomes : Prop :=
  ∀ (s : State) (p n : Word64) (x : Operand) (v : Storable), s.atPc p → s.atSp n → s.cfg.valid = true →
    value s x 1 = .ok v →
    (1 ≤ n.toInt → n.toInt ≤ s.cfg.stackSize →
      exec (.push (.operand x)) s =
        .next (((s.setReg .sp (some (.addr (wrapW (n.toInt - 1))))).writeStack (n.toInt - 1).toNat
          (some v)).pcAt (p.toInt + 2))) ∧
    (n.toInt ≤ 0 → -2 ^ 63 < n.toInt →
      exec (.push (.operand x)) s =
        .next ((s.setReg .sp (some (.addr (wrapW (n.toInt - 1))))).withFault .stackOverflow p
          (some .push) 0 none)) ∧
    ((s.cfg.stackSize : Int) < n.toInt ∨ n.toInt = -2 ^ 63 →
      exec (.push (.operand x)) s =
        .next ((s.setReg .sp (some (.addr (wrapW (n.toInt - 1))))).withFault .stackOutOfBounds p
          (some .push) 0 none))

/-- 41_stack R173, R171: POP clears the slot SP names, increments SP, then writes the destination: a general
register takes any value, BP, SP, HP an Address, PC the number plus 2. -/
def Obligations.PopResults : Prop :=
  ∀ (s : State) (p n : Word64) (i : Nat) (r : Reg) (v : Storable), s.atPc p → s.atSp n → n.toInt = i →
    i < s.cfg.stackSize → s.cfg.valid = true → memRead s.stack i = some v → r ≠ .zf →
    let t := (s.writeStack i none).setReg .sp (some (.addr (wrapW (n.toInt + 1))))
    (isSpecial r = false →
      exec (.pop (.operand (.reg r))) s = .next ((t.setReg r (some v)).pcAt (p.toInt + 2))) ∧
    (∀ m, isSpecial r = true → (v = .int m ∨ v = .addr m) →
      exec (.pop (.operand (.reg r))) s =
        .next ((t.setReg r (some (.addr m))).pcAt ((if r = .pc then m.toInt else p.toInt) + 2))) ∧
    (isSpecial r = true → (∃ c, v = .char c) ∨ (∃ b, v = .bool b) →
      exec (.pop (.operand (.reg r))) s = .next (s.withFault .typeMismatch p (some .pop) 1 (some r)))

/-- 41_stack R171: POP and RET at or above `StackSize` underflow, below 0 the slot does not exist, and an `empty`
slot faults; nothing else changes. -/
def Obligations.PopAndRetStackFaults : Prop :=
  ∀ (s : State) (p n : Word64) (r : Reg) (k : FaultKind), s.atPc p → s.atSp n → r ≠ .zf →
    (((s.cfg.stackSize : Int) ≤ n.toInt ∧ k = .stackUnderflow) ∨
      (n.toInt < 0 ∧ k = .stackOutOfBounds) ∨
      (∃ i : Nat, n.toInt = i ∧ i < s.cfg.stackSize ∧ memRead s.stack i = none ∧ k = .emptySlot)) →
    exec (.pop (.operand (.reg r))) s = .next (s.withFault k p (some .pop) 0 none) ∧
    (s.cfg.ext = true → exec .ret s = .next (s.withFault k p (some .ret) 0 none))

/-- 42_heap R180: an ALLOC that fits advances HP by the size and pushes the old HP as an Address. -/
def Obligations.AllocResult : Prop :=
  ∀ (s : State) (p n h k : Word64) (x : Operand), s.atPc p → s.atSp n → s.reg .hp = some (.addr h) →
    s.cfg.valid = true → value s x 1 = .ok (.int k) → 0 ≤ k.toInt → 0 ≤ h.toInt →
    h.toInt + k.toInt ≤ s.cfg.heapSize → 1 ≤ n.toInt → n.toInt ≤ s.cfg.stackSize →
    exec (.alloc (.operand x)) s =
      .next ((((s.setReg .hp (some (.addr (wrapW (h.toInt + k.toInt))))).setReg .sp
        (some (.addr (wrapW (n.toInt - 1))))).writeStack (n.toInt - 1).toNat
        (some (.addr h))).pcAt (p.toInt + 2))

/-- 42_heap R180: the faults of ALLOC after its operand is resolved: a size that is no Integer, a size that does
not fit (or is negative, or HP is), and a push that fails, with HP already advanced. -/
def Obligations.AllocFaults : Prop :=
  ∀ (s : State) (p n h : Word64) (x : Operand) (v : Storable), s.atPc p → s.atSp n →
    s.reg .hp = some (.addr h) → s.cfg.valid = true → value s x 1 = .ok v →
    ((∀ k, v ≠ .int k) →
      exec (.alloc (.operand x)) s = .next (s.withFault .typeMismatch p (some .alloc) 1 none)) ∧
    (∀ k : Word64, v = .int k →
      (k.toInt < 0 ∨ h.toInt < 0 ∨ (s.cfg.heapSize : Int) < h.toInt + k.toInt →
        exec (.alloc (.operand x)) s = .next (s.withFault .outOfMemory p (some .alloc) 0 none)) ∧
      (0 ≤ k.toInt → 0 ≤ h.toInt → h.toInt + k.toInt ≤ s.cfg.heapSize →
        (n.toInt ≤ 0 → -2 ^ 63 < n.toInt →
          exec (.alloc (.operand x)) s =
            .next (((s.setReg .hp (some (.addr (wrapW (h.toInt + k.toInt))))).setReg .sp
              (some (.addr (wrapW (n.toInt - 1))))).withFault .stackOverflow p (some .alloc) 0 none)) ∧
        ((s.cfg.stackSize : Int) < n.toInt ∨ n.toInt = -2 ^ 63 →
          exec (.alloc (.operand x)) s =
            .next (((s.setReg .hp (some (.addr (wrapW (h.toInt + k.toInt))))).setReg .sp
              (some (.addr (wrapW (n.toInt - 1))))).withFault .stackOutOfBounds p (some .alloc) 0 none))))

/-- 42_heap R182: STORE writes the value, its variant unchanged, at the heap index its first operand names. -/
def Obligations.StoreResult : Prop :=
  ∀ (s : State) (p : Word64) (x y : Operand) (a : Nat) (v : Storable), s.atPc p →
    heapAddr s x 1 = .ok a → value s y 2 = .ok v → Memory.wf s.heap = true →
    exec (.store (.operand x) (.operand y)) s = .next ((s.writeHeap a (some v)).pcAt (p.toInt + 3)) ∧
    memRead (memWrite s.heap a (some v)) a = some v

/-- 42_heap R184: LOAD writes its destination from the heap slot its second operand names, typed as MOV's, and
faults on an `empty` slot. -/
def Obligations.LoadResults : Prop :=
  ∀ (s : State) (p : Word64) (r : Reg) (y : Operand) (a : Nat), s.atPc p → r ≠ .zf →
    heapAddr s y 2 = .ok a →
    (memRead s.heap a = none →
      exec (.load (.operand (.reg r)) (.operand y)) s = .next (s.withFault .emptySlot p (some .load) 2 none)) ∧
    (∀ v, memRead s.heap a = some v → isSpecial r = false →
      exec (.load (.operand (.reg r)) (.operand y)) s = .next ((s.setReg r (some v)).pcAt (p.toInt + 3))) ∧
    (∀ n, (memRead s.heap a = some (.int n) ∨ memRead s.heap a = some (.addr n)) → isSpecial r = true →
      exec (.load (.operand (.reg r)) (.operand y)) s =
        .next ((s.setReg r (some (.addr n))).pcAt ((if r = .pc then n.toInt else p.toInt) + 3))) ∧
    (∀ v, memRead s.heap a = some v → isSpecial r = true → (∃ c, v = .char c) ∨ (∃ b, v = .bool b) →
      exec (.load (.operand (.reg r)) (.operand y)) s =
        .next (s.withFault .typeMismatch p (some .load) 1 (some r)))

/-- 43_arithmetic R196, R199: ADD writes the wrapped sum in the destination's variant, and ZF. -/
def Obligations.AddResult : Prop :=
  ∀ (s : State) (p m n : Word64) (r : Reg), s.atPc p → r ≠ .zf →
    let res := wrapW (m.toInt + n.toInt)
    let done (v : Storable) := (s.setReg r (some v)).setReg .zf (some (.bool (decide (res.toInt = 0))))
    (s.reg r = some (.int m) →
      exec (.add (.operand (.reg r)) (.operand (.imm (.int n)))) s =
        .next ((done (.int res)).pcAt (p.toInt + 3))) ∧
    (s.reg r = some (.addr m) →
      exec (.add (.operand (.reg r)) (.operand (.imm (.int n)))) s =
        .next ((done (.addr res)).pcAt ((if r = .pc then res.toInt else p.toInt) + 3)))

/-- 43_arithmetic R197, R199: SUB writes the wrapped difference, destination minus immediate, in the
destination's variant, and ZF. -/
def Obligations.SubResult : Prop :=
  ∀ (s : State) (p m n : Word64) (r : Reg), s.atPc p → r ≠ .zf →
    let res := wrapW (m.toInt - n.toInt)
    let done (v : Storable) := (s.setReg r (some v)).setReg .zf (some (.bool (decide (res.toInt = 0))))
    (s.reg r = some (.int m) →
      exec (.sub (.operand (.reg r)) (.operand (.imm (.int n)))) s =
        .next ((done (.int res)).pcAt (p.toInt + 3))) ∧
    (s.reg r = some (.addr m) →
      exec (.sub (.operand (.reg r)) (.operand (.imm (.int n)))) s =
        .next ((done (.addr res)).pcAt ((if r = .pc then res.toInt else p.toInt) + 3)))

/-- 43_arithmetic R195 to R197: the faults of ADD and SUB with a legal destination, in test order; ZF is not
written. -/
def Obligations.ArithmeticFaults : Prop :=
  ∀ (s : State) (p : Word64) (r : Reg) (y : Operand), s.atPc p → r ≠ .zf →
    let both (k : FaultKind) (j : Fin 3) (q : Option Reg) :=
      exec (.add (.operand (.reg r)) (.operand y)) s = .next (s.withFault k p (some .add) j q) ∧
      exec (.sub (.operand (.reg r)) (.operand y)) s = .next (s.withFault k p (some .sub) j q)
    ((∀ v, y ≠ .imm v) → both .unsupportedOperand 2 none) ∧
    ((∃ c, y = .imm (.char c)) ∨ (∃ b, y = .imm (.bool b)) → both .typeMismatch 2 none) ∧
    (∀ n, y = .imm (.int n) → s.reg r = none → both .nilRegister 1 (some r)) ∧
    (∀ n v, y = .imm (.int n) → s.reg r = some v → (∃ c, v = .char c) ∨ (∃ b, v = .bool b) →
      both .typeMismatch 1 (some r))

/-- 43_arithmetic R198: after an ADD or SUB that raised no fault, ZF says whether the number written to the
destination is 0 (for PC, the number before the advance), and no other instruction of the source's core writes
ZF. -/
def Obligations.ZeroFlagMeansZeroResult : Prop :=
  (∀ (s t : State) (p : Word64) (r : Reg) (y : Operand) (i : Instr), s.atPc p → s.fault = none → t.fault = none →
    (i = .add (.operand (.reg r)) (.operand y) ∨ i = .sub (.operand (.reg r)) (.operand y)) →
    exec i s = .next t →
    ∃ v n, t.reg r = some v ∧ numBits v = some n ∧
      t.reg .zf = some (.bool (decide ((if r = .pc then wrapW (n.toInt - 3) else n).toInt = 0)))) ∧
  (∀ (s t : State) (i : Instr), isExtOpcode i.opcode = false → i.opcode ≠ .add → i.opcode ≠ .sub →
    exec i s = .next t → t.reg .zf = s.reg .zf)

/-- 45_compare R225: the outcome of the four compares by the variants of the two resolved values, every row of the
table. -/
def Obligations.CompareOutcomeTable : Prop :=
  ∀ (s : State) (p : Word64) (x y : Operand) (a b : Storable), s.atPc p → s.cfg.ext = true →
    value s x 1 = .ok a → value s y 2 = .ok b →
    let done (c : Bool) := Host.Outcome.next ((s.setReg .zf (some (.bool c))).pcAt (p.toInt + 3))
    let fails (o : Opcode) (j : Fin 3) := Host.Outcome.next (s.withFault .typeMismatch p (some o) j none)
    exec (.eq (.operand x) (.operand y)) s = done (decide (a = b)) ∧
    exec (.ne (.operand x) (.operand y)) s = done (decide (a ≠ b)) ∧
    (∀ m n : Word64, (a = .int m ∧ b = .int n) ∨ (a = .addr m ∧ b = .addr n) →
      exec (.lt (.operand x) (.operand y)) s = done (decide (m.toInt < n.toInt)) ∧
      exec (.le (.operand x) (.operand y)) s = done (decide (m.toInt ≤ n.toInt))) ∧
    ((∃ c, a = .char c) ∨ (∃ c, a = .bool c) →
      exec (.lt (.operand x) (.operand y)) s = fails .lt 1 ∧
      exec (.le (.operand x) (.operand y)) s = fails .le 1) ∧
    ((∃ m, a = .int m) ∧ (∀ n, b ≠ .int n) ∨ (∃ m, a = .addr m) ∧ (∀ n, b ≠ .addr n) →
      exec (.lt (.operand x) (.operand y)) s = fails .lt 2 ∧
      exec (.le (.operand x) (.operand y)) s = fails .le 2)

/-- An Address word as an operand of a compare raises `UnsupportedOperand`: operand 1 first, then operand 2, before
either is resolved (45_compare R221 to R224). -/
def Obligations.CompareShapeFaults : Prop :=
  ∀ (s : State) (p : Word64) (x y : Operand) (j : Fin 3), s.atPc p → s.cfg.ext = true →
    (isValue x = false ∧ j = 1) ∨ (isValue x = true ∧ isValue y = false ∧ j = 2) →
    exec (.eq (.operand x) (.operand y)) s = .next (s.withFault .unsupportedOperand p (some .eq) j none) ∧
    exec (.ne (.operand x) (.operand y)) s = .next (s.withFault .unsupportedOperand p (some .ne) j none) ∧
    exec (.lt (.operand x) (.operand y)) s = .next (s.withFault .unsupportedOperand p (some .lt) j none) ∧
    exec (.le (.operand x) (.operand y)) s = .next (s.withFault .unsupportedOperand p (some .le) j none)

/-- 46_control_transfer R230: what a target operand yields: a program address in `[0, ProgLen]` or
`UnsupportedOperand`; `ProgLen` itself halts the program, and a word there that is no opcode word faults at the next
step. -/
def Obligations.TargetOperandYields : Prop :=
  ∀ (s : State) (j : Fin 3),
    (∀ t : Word64, 0 ≤ t.toInt → t.toInt ≤ s.progLen → target s (.addr .prog t) j = .ok t) ∧
    (∀ x, (∀ t : Word64, x = .addr .prog t → t.toInt < 0 ∨ (s.progLen : Int) < t.toInt) →
      target s x j = .error (.raise .unsupportedOperand j none s)) ∧
    (∀ t : Word64, s.fault = none → t.toInt = s.progLen → (s.setReg .pc (some (.addr t))).status = .halted) ∧
    (∀ t : Word64, s.fault = none → 0 ≤ t.toInt → t.toInt < s.progLen →
      (∀ o, s.progWord t.toInt.toNat ≠ .op o) →
      step (s.setReg .pc (some (.addr t))) =
        .next ((s.setReg .pc (some (.addr t))).withFault .unsupportedWord t none 0 none))

/-- 46_control_transfer R230, R231: JMP to a program address in `[0, ProgLen]` puts it into PC, with no advance. -/
def Obligations.JmpResult : Prop :=
  ∀ (s : State) (p t : Word64), s.atPc p → s.cfg.ext = true → 0 ≤ t.toInt → t.toInt ≤ s.progLen →
    exec (.jmp (.operand (.addr .prog t))) s = .next (s.setReg .pc (some (.addr t)))

/-- 46_control_transfer R232, R233: JE is taken when ZF holds `true`, JNE when it holds `false`, exactly one of the
two for any ZF that is not `empty`; otherwise PC advances by 2; an `empty` ZF faults. -/
def Obligations.ConditionalJumpResults : Prop :=
  ∀ (s : State) (p t : Word64), s.atPc p → s.cfg.ext = true → 0 ≤ t.toInt → t.toInt ≤ s.progLen →
    (∀ b, s.reg .zf = some (.bool b) →
      exec (.je (.operand (.addr .prog t))) s =
        .next (if b then s.setReg .pc (some (.addr t)) else s.pcAt (p.toInt + 2)) ∧
      exec (.jne (.operand (.addr .prog t))) s =
        .next (if b then s.pcAt (p.toInt + 2) else s.setReg .pc (some (.addr t)))) ∧
    (s.reg .zf = none →
      exec (.je (.operand (.addr .prog t))) s =
        .next (s.withFault .nilRegister p (some .je) 0 (some .zf)) ∧
      exec (.jne (.operand (.addr .prog t))) s =
        .next (s.withFault .nilRegister p (some .jne) 0 (some .zf)))

/-- 46_control_transfer R230: a target that is no program address word, or lies outside `[0, ProgLen]`, raises
`UnsupportedOperand` in JMP, JE, JNE and CALL, a jump that would not be taken included. -/
def Obligations.BadTargetFaults : Prop :=
  ∀ (s : State) (p : Word64) (x : Operand), s.atPc p → s.cfg.ext = true →
    (∀ t : Word64, x = .addr .prog t → t.toInt < 0 ∨ (s.progLen : Int) < t.toInt) →
    exec (.jmp (.operand x)) s = .next (s.withFault .unsupportedOperand p (some .jmp) 1 none) ∧
    exec (.je (.operand x)) s = .next (s.withFault .unsupportedOperand p (some .je) 1 none) ∧
    exec (.jne (.operand x)) s = .next (s.withFault .unsupportedOperand p (some .jne) 1 none) ∧
    exec (.call (.operand x)) s = .next (s.withFault .unsupportedOperand p (some .call) 1 none)

/-- 46_control_transfer R234: CALL pushes the index of the word after it and puts the target into PC; a push that
fails leaves SP decremented and PC as it was. -/
def Obligations.CallOutcomes : Prop :=
  ∀ (s : State) (p n t : Word64), s.atPc p → s.atSp n → s.cfg.ext = true → s.cfg.valid = true →
    0 ≤ t.toInt → t.toInt ≤ s.progLen →
    (1 ≤ n.toInt → n.toInt ≤ s.cfg.stackSize →
      exec (.call (.operand (.addr .prog t))) s =
        .next (((s.setReg .sp (some (.addr (wrapW (n.toInt - 1))))).writeStack (n.toInt - 1).toNat
          (some (.addr (wrapW (p.toInt + 2))))).setReg .pc (some (.addr t)))) ∧
    (n.toInt ≤ 0 → -2 ^ 63 < n.toInt →
      exec (.call (.operand (.addr .prog t))) s =
        .next ((s.setReg .sp (some (.addr (wrapW (n.toInt - 1))))).withFault .stackOverflow p
          (some .call) 0 none)) ∧
    ((s.cfg.stackSize : Int) < n.toInt ∨ n.toInt = -2 ^ 63 →
      exec (.call (.operand (.addr .prog t))) s =
        .next ((s.setReg .sp (some (.addr (wrapW (n.toInt - 1))))).withFault .stackOutOfBounds p
          (some .call) 0 none))

/-- 46_control_transfer R235: RET pops a number into PC with no advance; a Char or Bool on top faults. -/
def Obligations.RetResults : Prop :=
  ∀ (s : State) (p n : Word64) (i : Nat) (v : Storable), s.atPc p → s.atSp n → s.cfg.ext = true →
    n.toInt = i → i < s.cfg.stackSize → memRead s.stack i = some v →
    (∀ m, (v = .int m ∨ v = .addr m) →
      exec .ret s =
        .next (((s.writeStack i none).setReg .sp (some (.addr (wrapW (n.toInt + 1))))).setReg .pc
          (some (.addr m)))) ∧
    ((∃ c, v = .char c) ∨ (∃ b, v = .bool b) →
      exec .ret s = .next (s.withFault .typeMismatch p (some .ret) 0 (some .pc)))

/-! ## Frames -/

/-- 10_state R46, 70_reset_and_hazards R305: no step changes the configuration or the program. -/
def Obligations.HostConstantsStay : Prop :=
  ∀ s t : State, step s = .next t → t.cfg = s.cfg ∧ t.prog = s.prog

/-- The frame of the registers, from the table of 10_state R43: besides PC, an instruction changes only its
destination register and the registers it writes implicitly. -/
def Obligations.RegisterFrame : Prop :=
  ∀ (i : Instr) (s t : State) (r : Reg), exec i s = .next t → r ≠ .pc → isDestination i r = false →
    implicitlyWrites i.opcode r = false → t.reg r = s.reg r

/-- The frame of the stack (10_state R44): PUSH, ALLOC and CALL store at the decremented SP and nowhere else, POP
and RET clear the slot SP names and no other, and the other instructions leave every slot. -/
def Obligations.StackFrame : Prop :=
  ∀ (i : Instr) (s t : State) (a : Nat), exec i s = .next t →
    (i.opcode ∈ [Opcode.push, .alloc, .call] →
      (∀ n, (s.reg .sp).bind numBits = some n → (a : Int) ≠ (wrapW (n.toInt - 1)).toInt) →
      memRead t.stack a = memRead s.stack a) ∧
    (i.opcode ∈ [Opcode.pop, .ret] →
      (∀ n, (s.reg .sp).bind numBits = some n → (a : Int) ≠ n.toInt) →
      memRead t.stack a = memRead s.stack a) ∧
    (i.opcode ∉ [Opcode.push, .alloc, .call, .pop, .ret] → t.stack = s.stack)

/-- The frame of the heap (10_state R45): only STORE changes it, and only at the index its first operand names. -/
def Obligations.HeapFrame : Prop :=
  ∀ (i : Instr) (s t : State), exec i s = .next t →
    (i.opcode ≠ .store → t.heap = s.heap) ∧
    (∀ w1 w2 a, i = .store w1 w2 → (∀ x, w1 = .operand x → heapAddr s x 1 ≠ .ok a) →
      memRead t.heap a = memRead s.heap a)

/-- 10_state R31: a register that holds a value never becomes `empty` by a step. -/
def Obligations.RegistersNeverBecomeEmpty : Prop :=
  ∀ (s t : State) (r : Reg), step s = .next t → s.reg r ≠ none → t.reg r ≠ none

/-! ## Faults -/

/-- 60_exceptions R256, R257: the step that raises a fault records the PC it began with, the opcode it decoded (none
where no opcode word was found), and leaves PC where it was. -/
def Obligations.FaultRecordNamesTheInstruction : Prop :=
  ∀ (s t : State) (p : Word64) (f : FaultRecord), s.fault = none → s.atPc p → step s = .next t →
    t.fault = some f →
    f.pc = p ∧ t.reg .pc = s.reg .pc ∧
    f.opcode = (if p.toInt < 0 then none
      else match s.progWord p.toInt.toNat with
        | .op o => some o
        | _ => none)

/-- 60_exceptions R260: faults are precise. A step that raises a fault changes nothing but the record, but for a
fault inside a push, which leaves SP decremented and in ALLOC also HP advanced. -/
def Obligations.FaultsArePrecise : Prop :=
  ∀ (s t : State) (p n h : Word64) (f : FaultRecord), s.fault = none → s.atPc p → s.atSp n →
    s.reg .hp = some (.addr h) → step s = .next t → t.fault = some f →
    t = { s with fault := some f } ∨
    ((f.kind = .stackOverflow ∨ f.kind = .stackOutOfBounds) ∧ f.operand = 0 ∧ f.reg = none ∧
      ((f.opcode = some .push ∨ f.opcode = some .call) ∧
          t = { s.setReg .sp (some (.addr (wrapW (n.toInt - 1)))) with fault := some f } ∨
        f.opcode = some .alloc ∧ ∃ k : Word64, 0 ≤ k.toInt ∧
          t = { (s.setReg .hp (some (.addr (wrapW (h.toInt + k.toInt))))).setReg .sp
            (some (.addr (wrapW (n.toInt - 1)))) with fault := some f }))

/-- 60_exceptions R263: an instruction raises only the faults its row of the table lists, in every state a run can
reach. Derived: the spec marks the table as derived from the instruction rules; this is its "only these" half. -/
def Obligations.OnlyListedFaultsAreRaised : Prop :=
  ∀ (i : Instr) (s t : State) (f : FaultRecord), RunInv s → s.fault = none → exec i s = .next t →
    t.fault = some f → mayRaise i.opcode f.kind = true

/-! ## The whole machine -/

/-- AN INVARIANT THAT EVERY STEP KEEPS: the Special registers hold Addresses, ZF a Bool or nothing, the memories
are canonical and inside their spaces, the configuration is legal, and a recorded fault names the PC. Derived: which
`BP_RESET` is legal is the model's reading (DEDUCED, log 10). -/
def Obligations.StepKeepsTheInvariant : Prop :=
  ∀ s t : State, RunInv s → step s = .next t → RunInv t

/-- The machine never gets stuck: from every state that meets the invariant a step completes (70_reset_and_hazards
R302: a step, once requested, always completes). The stop for an undefined `num` (log 5) is never
reached. Derived: that `RunInv` asks for an Address or nothing in BP, and a legal `BP_RESET`, rests on log 10. -/
def Obligations.StepAlwaysCompletes : Prop :=
  ∀ s : State, RunInv s → Completes s

/-- Any number of requested steps from reset completes, each step and not the run: no end of the program is claimed
(40_engine_and_operands R147 guarantees none). Derived: the legal configurations and the clause of `RunInv` on BP
are the model's reading of 00_scope R8 with 10_state R35 (DEDUCED, log 10). It rests on `ResetMeetsTheInvariant`,
`HostConstantsStay`, `StepKeepsTheInvariant` and `StepAlwaysCompletes`. -/
def Obligations.StepsFromResetComplete : Prop :=
  ∀ (c : Config) (prog : List RawWord) (k : Nat), c.valid = true → prog.length ≤ 2 ^ 63 - 4 →
    ∃ t : State, core.run k (State.resetWith c prog) = .next t ∧ RunInv t ∧ t.cfg = c ∧ t.prog = prog

/-! ## Properties of pairs of instructions -/

/-- 41_stack R174: a PUSH, then a POP into a general register, gives the value, restores SP, leaves the slot used
`empty` and every other slot as it was. Derived: the spec marks the rule as derived from R170 to R173. -/
def Obligations.PushThenPopReturnsTheValue : Prop :=
  ∀ (s : State) (p n : Word64) (x : Operand) (v : Storable) (r : Reg), s.atPc p → s.atSp n →
    s.cfg.valid = true → Memory.wf s.stack = true → value s x 1 = .ok v → 0 < n.toInt →
    n.toInt ≤ s.cfg.stackSize → isSpecial r = false → r ≠ .zf →
    ∃ t u : State, exec (.push (.operand x)) s = .next t ∧ exec (.pop (.operand (.reg r))) t = .next u ∧
      u.reg r = some v ∧ u.reg .sp = s.reg .sp ∧ memRead u.stack (n.toInt - 1).toNat = none ∧
      ∀ a : Nat, (a : Int) ≠ n.toInt - 1 → memRead u.stack a = memRead s.stack a

/-- 42_heap R185, store/load identity: a STORE, then a LOAD of the same heap index into a general register, gives
the value, allocated or not. Derived: the spec marks the rule as derived from R180 to R184. -/
def Obligations.StoreThenLoadReturnsTheValue : Prop :=
  ∀ (s : State) (p : Word64) (x y : Operand) (a : Nat) (v : Storable) (r : Reg), s.atPc p →
    Memory.wf s.heap = true → heapAddr s x 1 = .ok a → value s y 2 = .ok v → isSpecial r = false → r ≠ .zf →
    ∃ t : State, exec (.store (.operand x) (.operand y)) s = .next t ∧
      (∃ z, heapAddr t z 2 = .ok a) ∧
      ∀ z, heapAddr t z 2 = .ok a →
        ∃ u : State, exec (.load (.operand (.reg r)) (.operand z)) t = .next u ∧ u.reg r = some v

/-- 42_heap R185, allocator monotonicity: ALLOC then POP gives the heap pointer from before, and the heap pointer
after is before plus the size. Derived: the spec marks the rule as derived from R180 to R184. -/
def Obligations.AllocThenPopGivesTheOldHeapPointer : Prop :=
  ∀ (s : State) (p n h k : Word64) (x : Operand) (r : Reg), s.atPc p → s.atSp n →
    s.reg .hp = some (.addr h) → s.cfg.valid = true → Memory.wf s.stack = true →
    value s x 1 = .ok (.int k) → 0 ≤ k.toInt → 0 ≤ h.toInt → h.toInt + k.toInt ≤ s.cfg.heapSize →
    1 ≤ n.toInt → n.toInt ≤ s.cfg.stackSize → isSpecial r = false → r ≠ .zf →
    ∃ (t u : State) (h' : Word64), exec (.alloc (.operand x)) s = .next t ∧
      exec (.pop (.operand (.reg r))) t = .next u ∧ u.reg r = some (.addr h) ∧
      u.reg .hp = some (.addr h') ∧ h'.toInt = h.toInt + k.toInt ∧ u.heap = s.heap

/-- CALL then RET: the callee's RET returns to the word after the CALL with SP and BP as before and the slot used
`empty` (46_control_transfer R234, R235). -/
def Obligations.CallThenRetReturns : Prop :=
  ∀ (s : State) (p n t : Word64), s.atPc p → s.atSp n → s.cfg.ext = true → s.cfg.valid = true →
    Memory.wf s.stack = true → 0 ≤ t.toInt → t.toInt ≤ s.progLen → 1 ≤ n.toInt →
    n.toInt ≤ s.cfg.stackSize →
    ∃ u w : State, exec (.call (.operand (.addr .prog t))) s = .next u ∧ exec .ret u = .next w ∧
      w.atPc (wrapW (p.toInt + 2)) ∧ w.reg .sp = s.reg .sp ∧ w.reg .bp = s.reg .bp ∧
      memRead w.stack (n.toInt - 1).toNat = none ∧
      ∀ a : Nat, (a : Int) ≠ n.toInt - 1 → memRead w.stack a = memRead s.stack a

/-- 46_control_transfer R237: a write to PC by MOV, ADD or SUB is followed by the ordinary advance. Derived: the
spec marks the rule as derived from R146. -/
def Obligations.PcWritesAreAdvanced : Prop :=
  ∀ (s : State) (p n : Word64), s.atPc p →
    (∃ t, exec (.mov (.operand (.reg .pc)) (.operand (.imm (.int n)))) s = .next t ∧
      t.atPc (wrapW (n.toInt + 3))) ∧
    (∃ t, exec (.add (.operand (.reg .pc)) (.operand (.imm (.int n)))) s = .next t ∧
      t.atPc (wrapW (p.toInt + n.toInt + 3))) ∧
    (∃ t, exec (.sub (.operand (.reg .pc)) (.operand (.imm (.int n)))) s = .next t ∧
      t.atPc (wrapW (p.toInt - n.toInt + 3)))
end

