-- ==== Sys2Proof/Laws/Decode.lean ====
section
/-! SUPPORT. The fields of a word, and the numbers of opcodes and registers. -/

namespace Sys2Proof

@[simp] theorem kindOf_rawWord (k : BitVec 8) (p : BitVec 64) : kindOf (rawWord k p) = k := by
  apply BitVec.eq_of_getLsbD_eq
  intro i hi
  simp only [kindOf, rawWord, BitVec.getLsbD_extractLsb', BitVec.getLsbD_append]
  simp [hi, show ¬ (64 + i < 64) by omega]

@[simp] theorem payloadOf_rawWord (k : BitVec 8) (p : BitVec 64) : payloadOf (rawWord k p) = p := by
  apply BitVec.eq_of_getLsbD_eq
  intro i hi
  simp only [payloadOf, rawWord, BitVec.getLsbD_extractLsb', BitVec.getLsbD_append]
  simp [hi]

@[simp] theorem rawWord_fields (w : RawWord) : rawWord (kindOf w) (payloadOf w) = w := by
  apply BitVec.eq_of_getLsbD_eq
  intro i hi
  simp only [kindOf, payloadOf, rawWord, BitVec.getLsbD_extractLsb', BitVec.getLsbD_append]
  by_cases h : i < 64
  · simp [h]
  · simp [h, show i - 64 < 8 by omega, show 64 + (i - 64) = i by omega]

theorem kindOf_toNat (w : RawWord) : (kindOf w).toNat = w.toNat / 2 ^ 64 := by
  have h : w.toNat < 2 ^ 72 := w.isLt
  simp only [kindOf, BitVec.extractLsb'_toNat, Nat.shiftRight_eq_div_pow]
  exact Nat.mod_eq_of_lt (by omega)

theorem payloadOf_toNat (w : RawWord) : (payloadOf w).toNat = w.toNat % 2 ^ 64 := by
  simp [payloadOf, BitVec.extractLsb'_toNat]

theorem Opcode.number_le (o : Opcode) : o.number ≤ 17 := by
  cases o <;> decide

@[simp] theorem Opcode.ofNumber_number (o : Opcode) : Opcode.ofNumber o.number = some o := by
  cases o <;> rfl

theorem Opcode.ofNumber_eq_some {k : Nat} {o : Opcode} : Opcode.ofNumber k = some o ↔ k = o.number := by
  constructor
  · intro h
    unfold Opcode.ofNumber at h
    split at h <;> cases h <;> rfl
  · rintro rfl
    exact Opcode.ofNumber_number o

theorem Opcode.ofNumber_eq_none {k : Nat} : Opcode.ofNumber k = none ↔ 17 < k := by
  constructor
  · intro h
    by_contra hk
    interval_cases k <;> cases h
  · intro h
    cases ho : Opcode.ofNumber k with
    | none => rfl
    | some o =>
      have := Opcode.number_le o
      rw [Opcode.ofNumber_eq_some.mp ho] at h
      omega

theorem Reg.number_le (r : Reg) : r.number ≤ 9 := by
  cases r <;> decide

@[simp] theorem Reg.ofNumber_number (r : Reg) : Reg.ofNumber r.number = some r := by
  cases r <;> rfl

theorem Reg.ofNumber_eq_some {k : Nat} {r : Reg} : Reg.ofNumber k = some r ↔ k = r.number := by
  constructor
  · intro h
    unfold Reg.ofNumber at h
    split at h <;> cases h <;> rfl
  · rintro rfl
    exact Reg.ofNumber_number r

theorem Reg.ofNumber_eq_none {k : Nat} : Reg.ofNumber k = none ↔ 9 < k := by
  constructor
  · intro h
    by_contra hk
    interval_cases k <;> cases h
  · intro h
    cases hr : Reg.ofNumber k with
    | none => rfl
    | some r =>
      have := Reg.number_le r
      rw [Reg.ofNumber_eq_some.mp hr] at h
      omega

@[simp] theorem Instr.opcode_ofWords (o : Opcode) (a b : Word) : (Instr.ofWords o a b).opcode = o := by
  cases o <;> rfl

end Sys2Proof
end

