-- ==== Sys2Proof/Laws/State.lean ====
section
/-! SUPPORT. The fields of every state update, true by unfolding, tagged `@[simp]`. -/

namespace Sys2Proof.Machine

/-! ## Register writes -/

theorem reg_setReg (s : State) (r q : Reg) (v : Slot) :
    (s.setReg r v).reg q = if q = r then v else s.reg q := by
  cases r <;> cases q <;> rfl

@[simp] theorem reg_setReg_self (s : State) (r : Reg) (v : Slot) : (s.setReg r v).reg r = v := by
  cases r <;> rfl

@[simp] theorem reg_setReg_of_ne (s : State) {r q : Reg} (v : Slot) (h : q ≠ r) :
    (s.setReg r v).reg q = s.reg q := by
  rw [reg_setReg, if_neg h]

@[simp] theorem stack_setReg (s : State) (r : Reg) (v : Slot) : (s.setReg r v).stack = s.stack := by
  cases r <;> rfl

@[simp] theorem heap_setReg (s : State) (r : Reg) (v : Slot) : (s.setReg r v).heap = s.heap := by
  cases r <;> rfl

@[simp] theorem fault_setReg (s : State) (r : Reg) (v : Slot) : (s.setReg r v).fault = s.fault := by
  cases r <;> rfl

@[simp] theorem cfg_setReg (s : State) (r : Reg) (v : Slot) : (s.setReg r v).cfg = s.cfg := by
  cases r <;> rfl

@[simp] theorem prog_setReg (s : State) (r : Reg) (v : Slot) : (s.setReg r v).prog = s.prog := by
  cases r <;> rfl

@[simp] theorem progLen_setReg (s : State) (r : Reg) (v : Slot) :
    (s.setReg r v).progLen = s.progLen := by
  cases r <;> rfl

@[simp] theorem setReg_setReg (s : State) (r : Reg) (v w : Slot) :
    (s.setReg r v).setReg r w = s.setReg r w := by
  cases r <;> rfl

/-! ## Stack and heap writes -/

@[simp] theorem reg_writeStack (s : State) (i : Nat) (v : Slot) (q : Reg) :
    (s.writeStack i v).reg q = s.reg q := by
  cases q <;> rfl

@[simp] theorem stack_writeStack (s : State) (i : Nat) (v : Slot) :
    (s.writeStack i v).stack = memWrite s.stack i v := rfl

@[simp] theorem heap_writeStack (s : State) (i : Nat) (v : Slot) :
    (s.writeStack i v).heap = s.heap := rfl

@[simp] theorem fault_writeStack (s : State) (i : Nat) (v : Slot) :
    (s.writeStack i v).fault = s.fault := rfl

@[simp] theorem cfg_writeStack (s : State) (i : Nat) (v : Slot) :
    (s.writeStack i v).cfg = s.cfg := rfl

@[simp] theorem prog_writeStack (s : State) (i : Nat) (v : Slot) :
    (s.writeStack i v).prog = s.prog := rfl

@[simp] theorem progLen_writeStack (s : State) (i : Nat) (v : Slot) :
    (s.writeStack i v).progLen = s.progLen := rfl

@[simp] theorem reg_writeHeap (s : State) (i : Nat) (v : Slot) (q : Reg) :
    (s.writeHeap i v).reg q = s.reg q := by
  cases q <;> rfl

@[simp] theorem stack_writeHeap (s : State) (i : Nat) (v : Slot) :
    (s.writeHeap i v).stack = s.stack := rfl

@[simp] theorem heap_writeHeap (s : State) (i : Nat) (v : Slot) :
    (s.writeHeap i v).heap = memWrite s.heap i v := rfl

@[simp] theorem fault_writeHeap (s : State) (i : Nat) (v : Slot) :
    (s.writeHeap i v).fault = s.fault := rfl

@[simp] theorem cfg_writeHeap (s : State) (i : Nat) (v : Slot) :
    (s.writeHeap i v).cfg = s.cfg := rfl

@[simp] theorem prog_writeHeap (s : State) (i : Nat) (v : Slot) :
    (s.writeHeap i v).prog = s.prog := rfl

@[simp] theorem progLen_writeHeap (s : State) (i : Nat) (v : Slot) :
    (s.writeHeap i v).progLen = s.progLen := rfl

theorem setReg_writeStack (s : State) (i : Nat) (v : Slot) (r : Reg) (w : Slot) :
    (s.writeStack i v).setReg r w = (s.setReg r w).writeStack i v := by
  cases r <;> rfl

theorem setReg_writeHeap (s : State) (i : Nat) (v : Slot) (r : Reg) (w : Slot) :
    (s.writeHeap i v).setReg r w = (s.setReg r w).writeHeap i v := by
  cases r <;> rfl

/-! ## Taking a fault -/

@[simp] theorem reg_takeFault (s : State) (f : FaultRecord) (q : Reg) :
    (s.takeFault f).reg q = s.reg q := by
  cases q <;> rfl

@[simp] theorem stack_takeFault (s : State) (f : FaultRecord) : (s.takeFault f).stack = s.stack := rfl

@[simp] theorem heap_takeFault (s : State) (f : FaultRecord) : (s.takeFault f).heap = s.heap := rfl

@[simp] theorem fault_takeFault (s : State) (f : FaultRecord) :
    (s.takeFault f).fault = some f := rfl

@[simp] theorem cfg_takeFault (s : State) (f : FaultRecord) : (s.takeFault f).cfg = s.cfg := rfl

@[simp] theorem prog_takeFault (s : State) (f : FaultRecord) : (s.takeFault f).prog = s.prog := rfl

@[simp] theorem progLen_takeFault (s : State) (f : FaultRecord) :
    (s.takeFault f).progLen = s.progLen := rfl

/-! ## Popping -/

theorem reg_popCommit (s : State) (n : Word64) (q : Reg) :
    (popCommit s n).reg q = if q = .sp then some (.addr (wrapW (n.toInt + 1))) else s.reg q := by
  simp [popCommit, reg_setReg]

@[simp] theorem stack_popCommit (s : State) (n : Word64) :
    (popCommit s n).stack = memWrite s.stack n.toInt.toNat none := by
  simp [popCommit]

@[simp] theorem heap_popCommit (s : State) (n : Word64) : (popCommit s n).heap = s.heap := by
  simp [popCommit]

@[simp] theorem fault_popCommit (s : State) (n : Word64) : (popCommit s n).fault = s.fault := by
  simp [popCommit]

@[simp] theorem cfg_popCommit (s : State) (n : Word64) : (popCommit s n).cfg = s.cfg := by
  simp [popCommit]

@[simp] theorem prog_popCommit (s : State) (n : Word64) : (popCommit s n).prog = s.prog := by
  simp [popCommit]

@[simp] theorem progLen_popCommit (s : State) (n : Word64) : (popCommit s n).progLen = s.progLen := by
  simp [popCommit]

/-! ## Equality of states -/

/-- Two states are equal when all registers, memories, the fault record and the constants are. -/
theorem State.eq_of_fields {s t : State} (hr : ∀ q, s.reg q = t.reg q) (hs : s.stack = t.stack)
    (hh : s.heap = t.heap) (hf : s.fault = t.fault) (hc : s.cfg = t.cfg) (hp : s.prog = t.prog) :
    s = t := by
  cases s
  cases t
  have h0 := hr .pc
  have h1 := hr .bp
  have h2 := hr .sp
  have h3 := hr .hp
  have h4 := hr .r1
  have h5 := hr .r2
  have h6 := hr .r3
  have h7 := hr .a1
  have h8 := hr .a2
  have h9 := hr .zf
  simp only [State.reg] at *
  subst_vars
  rfl

end Sys2Proof.Machine
end

