-- ==== Sys2Proof/Laws/Ops.lean ====
section
/-! SUPPORT. For each shared operation, once, everything it can answer: `…_eq_ok` says when it yields a value,
`…_eq_error` how it ends the instruction otherwise. -/

namespace Sys2Proof.Machine

/-! ## Sequencing -/

@[simp] theorem eff_ok_bind {α β : Type} (a : α) (f : α → Eff β) :
    ((Except.ok a : Eff α) >>= f) = f a := rfl

@[simp] theorem eff_error_bind {α β : Type} (e : Stop) (f : α → Eff β) :
    ((Except.error e : Eff α) >>= f) = .error e := rfl

theorem eff_bind_eq_ok {α β : Type} {x : Eff α} {f : α → Eff β} {b : β} :
    (x >>= f) = .ok b ↔ ∃ a, x = .ok a ∧ f a = .ok b := by
  cases x <;> simp

theorem eff_bind_eq_error {α β : Type} {x : Eff α} {f : α → Eff β} {e : Stop} :
    (x >>= f) = .error e ↔ x = .error e ∨ ∃ a, x = .ok a ∧ f a = .error e := by
  cases x <;> simp

@[simp] theorem raise_ne_ok {α : Type} (s : State) (k : FaultKind) (j : Fin 3) (r : Option Reg)
    (a : α) : (raise s k j r : Eff α) ≠ .ok a := by
  simp [raise]

@[simp] theorem raise_eq_error {α : Type} (s : State) (k : FaultKind) (j : Fin 3) (r : Option Reg)
    (e : Stop) : (raise s k j r : Eff α) = .error e ↔ e = .raise k j r s := by
  simp [raise, eq_comm]

/-! ## Numbers -/

@[simp] theorem wrapW_toInt (n : Word64) : wrapW n.toInt = n := by
  simp [wrapW]

theorem toInt_wrapW (z : Int) (h : -2 ^ 63 ≤ z) (h' : z < 2 ^ 63) : (wrapW z).toInt = z := by
  rw [wrapW, BitVec.toInt_ofInt]
  exact Int.bmod_eq_of_le (by simpa using h) (by simpa using h')

theorem toInt_lt (n : Word64) : n.toInt < 2 ^ 63 := by
  simpa using BitVec.toInt_lt (x := n)

theorem le_toInt (n : Word64) : -2 ^ 63 ≤ n.toInt := by
  simpa using BitVec.le_toInt n

@[simp] theorem numBits_addr (n : Word64) : numBits (.addr n) = some n := rfl

@[simp] theorem numBits_int (n : Word64) : numBits (.int n) = some n := rfl

/-! ## Checked reads -/

@[simp] theorem rd_eq_ok {s : State} {r : Reg} {j : Fin 3} {v : Storable} :
    rd s r j = .ok v ↔ s.reg r = some v := by
  unfold rd
  split <;> simp_all

theorem rd_eq_error {s : State} {r : Reg} {j : Fin 3} {e : Stop} :
    rd s r j = .error e ↔ s.reg r = none ∧ e = .raise .nilRegister j (some r) s := by
  unfold rd
  split <;> simp_all

@[simp] theorem numOf_eq_ok {r : Reg} {v : Storable} {n : Word64} :
    numOf r v = .ok n ↔ numBits v = some n := by
  unfold numOf
  split <;> simp_all

theorem numOf_eq_error {r : Reg} {v : Storable} {e : Stop} :
    numOf r v = .error e ↔ numBits v = none ∧ e = .stuck (.numUndefined r) := by
  unfold numOf
  cases numBits v <;> simp [eq_comm]

theorem rdNum_eq_ok {s : State} {r : Reg} {j : Fin 3} {n : Word64} :
    rdNum s r j = .ok n ↔ ∃ v, s.reg r = some v ∧ numBits v = some n := by
  simp [rdNum, eff_bind_eq_ok]

theorem rdNum_eq_error {s : State} {r : Reg} {j : Fin 3} {e : Stop} :
    rdNum s r j = .error e ↔
      (s.reg r = none ∧ e = .raise .nilRegister j (some r) s) ∨
        ∃ v, s.reg r = some v ∧ numBits v = none ∧ e = .stuck (.numUndefined r) := by
  simp [rdNum, eff_bind_eq_error, rd_eq_error, numOf_eq_error]

theorem rdNum_of_addr {s : State} {r : Reg} {n : Word64} (j : Fin 3) (h : s.reg r = some (.addr n)) :
    rdNum s r j = .ok n :=
  rdNum_eq_ok.mpr ⟨_, h, rfl⟩

/-! ## The stack primitives -/

/-- What a push leaves, from the number SP held. -/
theorem push_of_sp {s : State} {n : Word64} (v : Storable) (h : rdNum s .sp 0 = .ok n) :
    push s v =
      if (wrapW (n.toInt - 1)).toInt < 0 then
        raise (s.setReg .sp (some (.addr (wrapW (n.toInt - 1))))) .stackOverflow 0 none
      else if (s.cfg.stackSize : Int) ≤ (wrapW (n.toInt - 1)).toInt then
        raise (s.setReg .sp (some (.addr (wrapW (n.toInt - 1))))) .stackOutOfBounds 0 none
      else
        .ok ((s.setReg .sp (some (.addr (wrapW (n.toInt - 1))))).writeStack
          (wrapW (n.toInt - 1)).toInt.toNat (some v)) := by
  simp [push, h]

theorem push_eq_ok {s t : State} {v : Storable} :
    push s v = .ok t ↔
      ∃ n, rdNum s .sp 0 = .ok n ∧ 0 ≤ (wrapW (n.toInt - 1)).toInt ∧
        (wrapW (n.toInt - 1)).toInt < s.cfg.stackSize ∧
        t = (s.setReg .sp (some (.addr (wrapW (n.toInt - 1))))).writeStack
          (wrapW (n.toInt - 1)).toInt.toNat (some v) := by
  cases h : rdNum s .sp 0 with
  | error e => simp [push, h]
  | ok n =>
    rw [push_of_sp v h]
    split
    · next hlt => simp; omega
    · split
      · next hle => simp; omega
      · next hlt hle => simp [eq_comm, not_lt.mp hlt, not_le.mp hle]

/-- A push that ends the instruction has already moved SP, unless SP could not be read. -/
theorem push_eq_error {s : State} {v : Storable} {e : Stop} (h : push s v = .error e) :
    rdNum s .sp 0 = .error e ∨
      ∃ n k, rdNum s .sp 0 = .ok n ∧ (k = .stackOverflow ∨ k = .stackOutOfBounds) ∧
        e = .raise k 0 none (s.setReg .sp (some (.addr (wrapW (n.toInt - 1))))) := by
  cases hn : rdNum s .sp 0 with
  | error e' => left; simpa [push, hn] using h
  | ok n =>
    right
    rw [push_of_sp v hn] at h
    refine ⟨n, ?_⟩
    split at h
    · exact ⟨_, rfl, .inl rfl, by simpa using h⟩
    · split at h
      · exact ⟨_, rfl, .inr rfl, by simpa using h⟩
      · cases h

theorem popRead_eq_ok {s : State} {n : Word64} {v : Storable} :
    popRead s = .ok (n, v) ↔
      rdNum s .sp 0 = .ok n ∧ 0 ≤ n.toInt ∧ n.toInt < s.cfg.stackSize ∧
        memRead s.stack n.toInt.toNat = some v := by
  cases h : rdNum s .sp 0 with
  | error e => simp [popRead, h]
  | ok m =>
    simp only [popRead, h, eff_ok_bind]
    split
    · next hle => simp; intro hm; subst hm; omega
    · split
      · next hlt => simp; intro hm; subst hm; omega
      · split
        · next hle hlt slot v' hv =>
          simp only [Except.ok.injEq, Prod.mk.injEq]
          constructor
          · rintro ⟨rfl, rfl⟩; exact ⟨rfl, not_lt.mp hlt, not_le.mp hle, hv⟩
          · rintro ⟨rfl, -, -, hv'⟩; exact ⟨rfl, by simpa [hv] using hv'⟩
        · next hle hlt hv => simp; rintro rfl _ _; simp [hv]

/-- A pop that ends the instruction has written nothing (41_stack R171). -/
theorem popRead_eq_error {s : State} {e : Stop} (h : popRead s = .error e) :
    rdNum s .sp 0 = .error e ∨
      ∃ n k, rdNum s .sp 0 = .ok n ∧
        (k = .stackUnderflow ∨ k = .stackOutOfBounds ∨ k = .emptySlot) ∧
        e = .raise k 0 none s := by
  cases hn : rdNum s .sp 0 with
  | error e' => left; simpa [popRead, hn] using h
  | ok n =>
    right
    simp only [popRead, hn, eff_ok_bind] at h
    refine ⟨n, ?_⟩
    split at h
    · exact ⟨_, rfl, .inl rfl, by simpa using h⟩
    · split at h
      · exact ⟨_, rfl, .inr (.inl rfl), by simpa using h⟩
      · split at h
        · cases h
        · exact ⟨_, rfl, .inr (.inr rfl), by simpa using h⟩

/-! ## Operands -/

theorem stackIndex_eq_ok {s : State} {b : Base} {d : Word64} {j : Fin 3} {i : Nat} :
    stackIndex s b d j = .ok i ↔
      ∃ n, rdNum s (baseReg b) j = .ok n ∧ 0 ≤ n.toInt + d.toInt ∧
        n.toInt + d.toInt < s.cfg.stackSize ∧ i = (n.toInt + d.toInt).toNat := by
  cases h : rdNum s (baseReg b) j with
  | error e => simp [stackIndex, h]
  | ok n =>
    simp only [stackIndex, h, eff_ok_bind]
    split
    · next hor => simp; omega
    · next hor => simp; omega

theorem stackIndex_eq_error {s : State} {b : Base} {d : Word64} {j : Fin 3} {e : Stop}
    (h : stackIndex s b d j = .error e) :
    rdNum s (baseReg b) j = .error e ∨ e = .raise .stackOutOfBounds j none s := by
  cases hn : rdNum s (baseReg b) j with
  | error e' => left; simpa [stackIndex, hn] using h
  | ok n =>
    right
    simp only [stackIndex, hn, eff_ok_bind] at h
    split at h
    · simpa using h
    · cases h

@[simp] theorem needSlot_eq_ok {s : State} {v : Slot} {j : Fin 3} {x : Storable} :
    needSlot s v j = .ok x ↔ v = some x := by
  cases v <;> simp [needSlot]

@[simp] theorem needSlot_eq_error {s : State} {v : Slot} {j : Fin 3} {e : Stop} :
    needSlot s v j = .error e ↔ v = none ∧ e = .raise .emptySlot j none s := by
  cases v <;> simp [needSlot]

@[simp] theorem needValue_eq_ok {s : State} {x : Operand} {j : Fin 3} {u : Unit} :
    needValue s x j = .ok u ↔ isValue x = true := by
  cases h : isValue x <;> simp [needValue, h]

@[simp] theorem needValue_eq_error {s : State} {x : Operand} {j : Fin 3} {e : Stop} :
    needValue s x j = .error e ↔ isValue x = false ∧ e = .raise .unsupportedOperand j none s := by
  cases h : isValue x <;> simp [needValue, h]

/-- A value operand that yields a value has the shape of one. -/
theorem isValue_of_value {s : State} {x : Operand} {j : Fin 3} {v : Storable}
    (h : value s x j = .ok v) : isValue x = true := by
  cases x with
  | addr sp n => exact absurd h (raise_ne_ok s .unsupportedOperand j none v)
  | reg r => rfl
  | imm w => rfl
  | off b d => rfl

/-- How a value operand ends the instruction: nothing is written (40_engine_and_operands R151). -/
theorem value_eq_error {s : State} {x : Operand} {j : Fin 3} {e : Stop} (h : value s x j = .error e) :
    (∃ r, rd s r j = .error e) ∨ (∃ b, rdNum s (baseReg b) j = .error e) ∨
      ∃ k, (k = .stackOutOfBounds ∨ k = .emptySlot ∨ k = .unsupportedOperand) ∧
        e = .raise k j none s := by
  cases x with
  | reg r => exact .inl ⟨r, h⟩
  | imm v => cases h
  | addr sp n => exact .inr (.inr ⟨_, .inr (.inr rfl), by simpa [value] using h⟩)
  | off b d =>
    right
    rcases eff_bind_eq_error.mp h with h | ⟨i, -, h⟩
    · rcases stackIndex_eq_error h with h | rfl
      · exact .inl ⟨b, h⟩
      · exact .inr ⟨_, .inl rfl, rfl⟩
    · exact .inr ⟨_, .inr (.inl rfl), (needSlot_eq_error.mp h).2⟩

theorem dstReg_eq_ok {s : State} {x : Operand} {j : Fin 3} {r : Reg} :
    dstReg s x j = .ok r ↔ x = .reg r ∧ r ≠ .zf := by
  cases x with
  | reg q =>
    by_cases hq : q = .zf
    · simp [dstReg, hq]; rintro rfl; rfl
    · simp only [dstReg, hq, if_false, Except.ok.injEq, Operand.reg.injEq]
      constructor
      · rintro rfl; exact ⟨rfl, hq⟩
      · rintro ⟨rfl, -⟩; rfl
  | imm v => simp [dstReg]
  | off b d => simp [dstReg]
  | addr sp n => simp [dstReg]

theorem dstReg_eq_error {s : State} {x : Operand} {j : Fin 3} {e : Stop}
    (h : dstReg s x j = .error e) : e = .raise .unsupportedOperand j none s := by
  cases x with
  | reg q => by_cases hq : q = .zf <;> simp_all [dstReg]
  | imm v => simpa [dstReg] using h
  | off b d => simpa [dstReg] using h
  | addr sp n => simpa [dstReg] using h

theorem coerce_eq_ok {s : State} {r : Reg} {v u : Storable} {j : Fin 3} :
    coerce s r v j = .ok u ↔
      if isSpecial r then ∃ n, numBits v = some n ∧ u = .addr n else u = v := by
  cases hr : isSpecial r with
  | false => simp [coerce, hr, eq_comm]
  | true =>
    cases hn : numBits v with
    | none => simp [coerce, hr, hn]
    | some n => simp [coerce, hr, hn, eq_comm]

theorem coerce_eq_error {s : State} {r : Reg} {v : Storable} {j : Fin 3} {e : Stop}
    (h : coerce s r v j = .error e) :
    isSpecial r = true ∧ numBits v = none ∧ e = .raise .typeMismatch j (some r) s := by
  cases hr : isSpecial r with
  | false => simp [coerce, hr] at h
  | true => cases hn : numBits v <;> simp_all [coerce]

@[simp] theorem needHeapAddr_eq_ok {s : State} {x : Operand} {j : Fin 3} {u : Unit} :
    needHeapAddr s x j = .ok u ↔ isHeapAddr x = true := by
  cases h : isHeapAddr x <;> simp [needHeapAddr, h]

@[simp] theorem needHeapAddr_eq_error {s : State} {x : Operand} {j : Fin 3} {e : Stop} :
    needHeapAddr s x j = .error e ↔
      isHeapAddr x = false ∧ e = .raise .unsupportedOperand j none s := by
  cases h : isHeapAddr x <;> simp [needHeapAddr, h]

theorem heapIndex_eq_ok {s : State} {a : Word64} {j : Fin 3} {i : Nat} :
    heapIndex s a j = .ok i ↔
      0 ≤ a.toInt ∧ a.toInt < s.cfg.heapSize ∧ i = a.toInt.toNat := by
  unfold heapIndex
  split
  · next h => simp; omega
  · next h => simp; omega

theorem heapIndex_eq_error {s : State} {a : Word64} {j : Fin 3} {e : Stop}
    (h : heapIndex s a j = .error e) : e = .raise .heapOutOfBounds j none s := by
  unfold heapIndex at h
  split at h
  · simpa using h
  · cases h

theorem needAddr_eq_ok {s : State} {r : Reg} {v : Storable} {j : Fin 3} {a : Word64} :
    needAddr s r v j = .ok a ↔ v = .addr a := by
  cases v <;> simp [needAddr]

theorem needAddr_eq_error {s : State} {r : Reg} {v : Storable} {j : Fin 3} {e : Stop}
    (h : needAddr s r v j = .error e) : e = .raise .typeMismatch j (some r) s := by
  cases v <;> simp_all [needAddr]

/-- When a heap address operand names a location, and which (42_heap R181). -/
theorem heapAddr_eq_ok {s : State} {x : Operand} {j : Fin 3} {i : Nat} :
    heapAddr s x j = .ok i ↔
      ∃ a, ((∃ r, x = .reg r ∧ s.reg r = some (.addr a)) ∨ x = .addr .heap a) ∧
        0 ≤ a.toInt ∧ a.toInt < s.cfg.heapSize ∧ i = a.toInt.toNat := by
  cases x with
  | reg r =>
    simp only [heapAddr, eff_bind_eq_ok, rd_eq_ok, needAddr_eq_ok, heapIndex_eq_ok]
    constructor
    · rintro ⟨v, hv, a, rfl, h⟩; exact ⟨a, .inl ⟨r, rfl, hv⟩, h⟩
    · rintro ⟨a, ⟨r', hr, hv⟩ | hx, h⟩
      · cases hr; exact ⟨_, hv, a, rfl, h⟩
      · cases hx
  | imm v => simp [heapAddr]
  | off b d => simp [heapAddr]
  | addr sp n => cases sp <;> simp [heapAddr, heapIndex_eq_ok]

theorem isHeapAddr_of_heapAddr {s : State} {x : Operand} {j : Fin 3} {i : Nat}
    (h : heapAddr s x j = .ok i) : isHeapAddr x = true := by
  obtain ⟨a, ⟨r, rfl, -⟩ | rfl, -⟩ := heapAddr_eq_ok.mp h <;> rfl

theorem heapAddr_eq_error {s : State} {x : Operand} {j : Fin 3} {e : Stop}
    (h : heapAddr s x j = .error e) :
    (∃ r, rd s r j = .error e) ∨
      ∃ k q, (k = .typeMismatch ∨ k = .heapOutOfBounds ∨ k = .unsupportedOperand) ∧
        e = .raise k j q s := by
  cases x with
  | reg r =>
    rcases eff_bind_eq_error.mp h with h | ⟨v, -, h⟩
    · exact .inl ⟨r, h⟩
    · rcases eff_bind_eq_error.mp h with h | ⟨a, -, h⟩
      · exact .inr ⟨_, _, .inl rfl, needAddr_eq_error h⟩
      · exact .inr ⟨_, _, .inr (.inl rfl), heapIndex_eq_error h⟩
  | imm v => exact .inr ⟨_, _, .inr (.inr rfl), by simpa [heapAddr] using h⟩
  | off b d => exact .inr ⟨_, _, .inr (.inr rfl), by simpa [heapAddr] using h⟩
  | addr sp n =>
    cases sp with
    | prog => exact .inr ⟨_, _, .inr (.inr rfl), by simpa [heapAddr] using h⟩
    | heap => exact .inr ⟨_, _, .inr (.inl rfl), heapIndex_eq_error h⟩

/-- When a target operand names a program address (46_control_transfer R230). -/
theorem target_eq_ok {s : State} {x : Operand} {j : Fin 3} {t : Word64} :
    target s x j = .ok t ↔ x = .addr .prog t ∧ 0 ≤ t.toInt ∧ t.toInt ≤ s.progLen := by
  cases x with
  | reg r => simp [target]
  | imm v => simp [target]
  | off b d => simp [target]
  | addr sp n =>
    cases sp with
    | heap => simp [target]
    | prog =>
      simp only [target]
      split
      · next h =>
        simp only [raise_ne_ok, Operand.addr.injEq, true_and, false_iff, not_and, not_le]
        rintro rfl h0
        omega
      · next h =>
        simp only [Except.ok.injEq, Operand.addr.injEq, true_and]
        constructor
        · rintro rfl; exact ⟨rfl, by omega, by omega⟩
        · rintro ⟨rfl, -⟩; rfl

theorem target_eq_error {s : State} {x : Operand} {j : Fin 3} {e : Stop}
    (h : target s x j = .error e) : e = .raise .unsupportedOperand j none s := by
  cases x with
  | reg r => simpa [target] using h
  | imm v => simpa [target] using h
  | off b d => simpa [target] using h
  | addr sp n =>
    cases sp with
    | heap => simpa [target] using h
    | prog =>
      simp only [target] at h
      split at h
      · simpa using h
      · cases h

/-! ## Flags -/

theorem orderedPair_eq_ok {s : State} {a b : Storable} {m n : Word64} :
    orderedPair s a b = .ok (m, n) ↔ (a = .int m ∧ b = .int n) ∨ (a = .addr m ∧ b = .addr n) := by
  cases a <;> cases b <;> simp [orderedPair]

theorem orderedPair_eq_error {s : State} {a b : Storable} {e : Stop}
    (h : orderedPair s a b = .error e) : ∃ j, e = .raise .typeMismatch j none s := by
  cases a <;> cases b <;> simp_all [orderedPair]

theorem zfIs_eq_ok {s : State} {b c : Bool} :
    zfIs s b = .ok c ↔ ∃ z, s.reg .zf = some z ∧ c = sameValue z (.bool b) := by
  simp only [zfIs, eff_bind_eq_ok, rd_eq_ok, Except.ok.injEq]
  exact exists_congr fun z => and_congr_right fun _ => eq_comm

/-! ## The engine -/

@[simp] theorem dispatchCheck_eq_ok {s : State} {o : Opcode} {u : Unit} :
    dispatchCheck s o = .ok u ↔ (isExtOpcode o = true → s.cfg.ext = true) := by
  unfold dispatchCheck
  cases isExtOpcode o <;> cases s.cfg.ext <;> simp

theorem dispatchCheck_eq_error {s : State} {o : Opcode} {e : Stop} :
    dispatchCheck s o = .error e ↔
      (isExtOpcode o = true ∧ s.cfg.ext = false) ∧ e = .raise .unimplementedOpcode 0 none s := by
  unfold dispatchCheck
  cases isExtOpcode o <;> cases s.cfg.ext <;> simp

@[simp] theorem needOperand_operand (s : State) (x : Operand) (j : Fin 3) :
    needOperand s (.operand x) j = .ok x := rfl

theorem needOperand_eq_ok {s : State} {w : Word} {j : Fin 3} {x : Operand} :
    needOperand s w j = .ok x ↔ w = .operand x := by
  cases w <;> simp [needOperand]

theorem needOperand_eq_error {s : State} {w : Word} {j : Fin 3} {e : Stop}
    (h : needOperand s w j = .error e) : e = .raise .unsupportedWord j none s := by
  cases w <;> simp_all [needOperand]

theorem currentPc_of_atPc {s : State} {p : Word64} (h : s.reg .pc = some (.addr p)) :
    currentPc s = .ok p :=
  rdNum_of_addr 0 h

/-- The advance, once PC holds a number (40_engine_and_operands R146). -/
theorem advance_of_num {s : State} {k : Nat} {v : Storable} {n : Word64} (h : s.reg .pc = some v)
    (hn : numBits v = some n) :
    advance k s = .next (s.setReg .pc (some (.addr (wrapW (n.toInt + 1 + k))))) := by
  simp [advance, h, hn]

/-- How a step ends: with the state of a taken transfer, with the advanced state, with the fault taken in the
state left behind, or with the model's own stop. -/
theorem conclude_eq_next {o : Opcode} {s0 t : State} {e : Effect} (h : conclude o s0 e = .next t) :
    e = .ok (true, t) ∨
      (∃ u v n, e = .ok (false, u) ∧ u.reg .pc = some v ∧ numBits v = some n ∧
        t = u.setReg .pc (some (.addr (wrapW (n.toInt + 1 + o.arity))))) ∨
      ∃ k j r left, e = .error (.raise k j r left) ∧
        t = left.takeFault { kind := k, pc := faultPc s0, opcode := some o, operand := j, reg := r } := by
  match e with
  | .ok (true, u) => left; simpa [conclude] using h
  | .ok (false, u) =>
    right; left
    simp only [conclude, advance] at h
    split at h
    · next n hn =>
      obtain ⟨v, hv, hvn⟩ := Option.bind_eq_some_iff.mp hn
      exact ⟨u, v, n, rfl, hv, hvn, by simpa using h.symm⟩
    · cases h
  | .error (.raise k j r left) =>
    right; right
    exact ⟨k, j, r, left, rfl, by simpa [conclude, settle] using h.symm⟩
  | .error (.stuck f) => simp [conclude, settle] at h

/-- A fetched opcode is the one that stands at PC (40_engine_and_operands R141). -/
theorem fetchOpcode_eq_ok {s : State} {p : Word64} {o : Opcode} :
    fetchOpcode s p = .ok o ↔ 0 ≤ p.toInt ∧ s.progWord p.toInt.toNat = .op o := by
  unfold fetchOpcode
  split
  · next h => simp; omega
  · next h =>
    split <;> simp_all

theorem fetchOpcode_eq_error {s : State} {p : Word64} {e : Stop} (h : fetchOpcode s p = .error e) :
    e = .raise .unsupportedWord 0 none s := by
  unfold fetchOpcode at h
  split at h
  · simpa using h
  · split at h <;> simp_all

/-- What the fetch answers (40_engine_and_operands R140 to R143). -/
theorem fetch_eq_run {s : State} {i : Instr} (h : fetch s = .run i) :
    ∃ p o, s.fault = none ∧ currentPc s = .ok p ∧ 0 ≤ p.toInt ∧ p.toInt + o.arity < s.progLen ∧
      s.progWord p.toInt.toNat = .op o ∧ (isExtOpcode o = true → s.cfg.ext = true) ∧
      i = Instr.ofWords o (s.progWord (p.toInt.toNat + 1)) (s.progWord (p.toInt.toNat + 2)) := by
  unfold fetch at h
  split at h
  · cases h
  · next hf =>
    split at h
    · cases h
    · next p hp =>
      split at h
      · cases h
      · next hlt =>
        unfold fetchAt at h
        split at h
        · cases h
        · next o ho =>
          split at h
          · cases h
          · next u hd =>
            split at h
            · cases h
            · next i' hi =>
              obtain ⟨h0, hw⟩ := fetchOpcode_eq_ok.mp ho
              unfold fetchOperands at hi
              split at hi
              · exact absurd hi (raise_ne_ok _ _ _ _ _)
              · next hk =>
                cases h
                refine ⟨p, o, ?_, hp, h0, by omega, hw, dispatchCheck_eq_ok.mp hd, ?_⟩
                · simpa using hf
                · simpa using hi.symm

end Sys2Proof.Machine
end

