-- ==== Sys2Proof/Laws/Engine.lean ====
section
/-! SUPPORT. What the engine does around an effect function, once for each instruction format, and the ends of an
instruction. -/

namespace Sys2Proof.Machine

/-- An instruction of format OP0 that passes the dispatch check runs its effect function. -/
theorem run0_of_enabled {o : Opcode} {s : State} {p : Word64} (eff : Word64 → Effect)
    (hp : s.reg .pc = some (.addr p)) (he : isExtOpcode o = true → s.cfg.ext = true) :
    run0 o s eff = conclude o s (eff p) := by
  have hd : dispatchCheck s o = .ok () := dispatchCheck_eq_ok.mpr he
  simp [run0, currentPc_of_atPc hp, hd]

/-- An instruction of format OP1 with an operand word that passes the dispatch check runs its effect function. -/
theorem run1_of_enabled {o : Opcode} {s : State} {p : Word64} (x : Operand)
    (eff : Word64 → Operand → Effect) (hp : s.reg .pc = some (.addr p))
    (he : isExtOpcode o = true → s.cfg.ext = true) :
    run1 o (.operand x) s eff = conclude o s (eff p x) := by
  have hd : dispatchCheck s o = .ok () := dispatchCheck_eq_ok.mpr he
  simp [run1, currentPc_of_atPc hp, hd]

/-- An instruction of format OP2 with operand words that passes the dispatch check runs its effect function. -/
theorem run2_of_enabled {o : Opcode} {s : State} {p : Word64} (x y : Operand)
    (eff : Word64 → Operand → Operand → Effect) (hp : s.reg .pc = some (.addr p))
    (he : isExtOpcode o = true → s.cfg.ext = true) :
    run2 o (.operand x) (.operand y) s eff = conclude o s (eff p x y) := by
  have hd : dispatchCheck s o = .ok () := dispatchCheck_eq_ok.mpr he
  simp [run2, currentPc_of_atPc hp, hd]

/-- The end of an instruction that is not a taken transfer and left a number in PC. -/
theorem conclude_advances {o : Opcode} {s t : State} {v : Storable} {n : Word64}
    (h : t.reg .pc = some v) (hn : numBits v = some n) :
    conclude o s (.ok (false, t)) =
      .next (t.setReg .pc (some (.addr (wrapW (n.toInt + 1 + o.arity))))) :=
  advance_of_num h hn

/-- The end of a taken transfer. -/
@[simp] theorem conclude_taken (o : Opcode) (s t : State) : conclude o s (.ok (true, t)) = .next t := rfl

/-- The end of an instruction that raised a fault: the record is written over what it left. -/
theorem conclude_raise {o : Opcode} {s left : State} {p : Word64} (k : FaultKind) (j : Fin 3)
    (r : Option Reg) (hp : s.reg .pc = some (.addr p)) :
    conclude o s (.error (.raise k j r left)) =
      .next { left with fault := some { kind := k, pc := p, opcode := some o, operand := j, reg := r } } := by
  simp [conclude, settle, faultPc, hp, State.takeFault]

/-- How an instruction with its three shared heads can stop before its effect function runs: reading PC, the
dispatch check, or a misshapen operand word. -/
theorem run2_eq {o : Opcode} {s : State} (w1 w2 : Word) (eff : Word64 → Operand → Operand → Effect) :
    ∃ e : Effect, run2 o w1 w2 s eff = conclude o s e ∧
      (∀ t, e = .ok t → ∃ p x y, w1 = .operand x ∧ w2 = .operand y ∧ eff p x y = .ok t) ∧
      (∀ st, e = .error st → currentPc s = .error st ∨ dispatchCheck s o = .error st ∨
        (∃ j, st = .raise .unsupportedWord j none s) ∨
        ∃ p x y, w1 = .operand x ∧ w2 = .operand y ∧ eff p x y = .error st) := by
  refine ⟨_, rfl, ?_, ?_⟩
  · intro t ht
    obtain ⟨p, -, ht⟩ := eff_bind_eq_ok.mp ht
    obtain ⟨u, -, ht⟩ := eff_bind_eq_ok.mp ht
    obtain ⟨x, hx, ht⟩ := eff_bind_eq_ok.mp ht
    obtain ⟨y, hy, ht⟩ := eff_bind_eq_ok.mp ht
    exact ⟨p, x, y, needOperand_eq_ok.mp hx, needOperand_eq_ok.mp hy, ht⟩
  · intro st hst
    rcases eff_bind_eq_error.mp hst with h | ⟨p, -, hst⟩
    · exact .inl h
    rcases eff_bind_eq_error.mp hst with h | ⟨u, -, hst⟩
    · exact .inr (.inl h)
    rcases eff_bind_eq_error.mp hst with h | ⟨x, hx, hst⟩
    · exact .inr (.inr (.inl ⟨_, needOperand_eq_error h⟩))
    rcases eff_bind_eq_error.mp hst with h | ⟨y, hy, hst⟩
    · exact .inr (.inr (.inl ⟨_, needOperand_eq_error h⟩))
    · exact .inr (.inr (.inr ⟨p, x, y, needOperand_eq_ok.mp hx, needOperand_eq_ok.mp hy, hst⟩))

/-- The same for format OP1. -/
theorem run1_eq {o : Opcode} {s : State} (w1 : Word) (eff : Word64 → Operand → Effect) :
    ∃ e : Effect, run1 o w1 s eff = conclude o s e ∧
      (∀ t, e = .ok t → ∃ p x, w1 = .operand x ∧ eff p x = .ok t) ∧
      (∀ st, e = .error st → currentPc s = .error st ∨ dispatchCheck s o = .error st ∨
        (∃ j, st = .raise .unsupportedWord j none s) ∨ ∃ p x, w1 = .operand x ∧ eff p x = .error st) := by
  refine ⟨_, rfl, ?_, ?_⟩
  · intro t ht
    obtain ⟨p, -, ht⟩ := eff_bind_eq_ok.mp ht
    obtain ⟨u, -, ht⟩ := eff_bind_eq_ok.mp ht
    obtain ⟨x, hx, ht⟩ := eff_bind_eq_ok.mp ht
    exact ⟨p, x, needOperand_eq_ok.mp hx, ht⟩
  · intro st hst
    rcases eff_bind_eq_error.mp hst with h | ⟨p, -, hst⟩
    · exact .inl h
    rcases eff_bind_eq_error.mp hst with h | ⟨u, -, hst⟩
    · exact .inr (.inl h)
    rcases eff_bind_eq_error.mp hst with h | ⟨x, hx, hst⟩
    · exact .inr (.inr (.inl ⟨_, needOperand_eq_error h⟩))
    · exact .inr (.inr (.inr ⟨p, x, needOperand_eq_ok.mp hx, hst⟩))

/-- The same for format OP0. -/
theorem run0_eq {o : Opcode} {s : State} (eff : Word64 → Effect) :
    ∃ e : Effect, run0 o s eff = conclude o s e ∧
      (∀ t, e = .ok t → ∃ p, eff p = .ok t) ∧
      (∀ st, e = .error st → currentPc s = .error st ∨ dispatchCheck s o = .error st ∨
        ∃ p, eff p = .error st) := by
  refine ⟨_, rfl, ?_, ?_⟩
  · intro t ht
    obtain ⟨p, -, ht⟩ := eff_bind_eq_ok.mp ht
    obtain ⟨u, -, ht⟩ := eff_bind_eq_ok.mp ht
    exact ⟨p, ht⟩
  · intro st hst
    rcases eff_bind_eq_error.mp hst with h | ⟨p, -, hst⟩
    · exact .inl h
    rcases eff_bind_eq_error.mp hst with h | ⟨u, -, hst⟩
    · exact .inr (.inl h)
    · exact .inr (.inr ⟨p, hst⟩)

end Sys2Proof.Machine
end

