-- ==== Sys2Proof/Laws/Memory.lean ====
section
/-! SUPPORT. Reading after writing, and that every memory operation keeps the canonical form and the bounds. -/

namespace Sys2Proof.Machine

@[simp] theorem memRead_nil (i : Nat) : memRead [] i = none := rfl

/-- Every listed index is above `b`. -/
def Memory.above (b : Nat) (m : Memory) : Prop := ∀ c ∈ m, b < c.1

theorem Memory.wf_cons (i : Nat) (v : Storable) (m : Memory) :
    Memory.wf ((i, v) :: m) = true ↔ Memory.above i m ∧ Memory.wf m = true := by
  induction m generalizing i v with
  | nil => simp [Memory.wf, Memory.above]
  | cons c m ih =>
    obtain ⟨j, w⟩ := c
    constructor
    · intro h
      simp only [Memory.wf, Bool.and_eq_true, decide_eq_true_eq] at h
      refine ⟨?_, h.2⟩
      intro c hc
      rcases List.mem_cons.mp hc with rfl | hc
      · exact h.1
      · exact lt_trans h.1 ((((ih j w).mp h.2).1) c hc)
    · rintro ⟨ha, hw⟩
      simp only [Memory.wf, Bool.and_eq_true, decide_eq_true_eq]
      exact ⟨ha (j, w) (by simp), hw⟩

theorem memRead_eq_none_of_above {i : Nat} {m : Memory} (h : Memory.above i m) :
    memRead m i = none := by
  induction m with
  | nil => rfl
  | cons c m ih =>
    obtain ⟨j, w⟩ := c
    have hj : i < j := h (j, w) (by simp)
    rw [memRead, if_neg (by omega)]
    exact ih fun c hc => h c (by simp [hc])

theorem memRead_memCons (i : Nat) (v : Slot) (m : Memory) (k : Nat) (hm : memRead m i = none) :
    memRead (memCons i v m) k = if k = i then v else memRead m k := by
  cases v with
  | none =>
    by_cases hk : k = i
    · simp [memCons, hk, hm]
    · simp [memCons, hk]
  | some x =>
    by_cases hk : k = i
    · simp [memCons, memRead, hk]
    · simp [memCons, memRead, hk, Ne.symm hk]

theorem Memory.above_memCons {b i : Nat} {v : Slot} {m : Memory} (hi : b < i)
    (hm : Memory.above b m) : Memory.above b (memCons i v m) := by
  cases v with
  | none => exact hm
  | some x =>
    intro c hc
    rcases List.mem_cons.mp hc with rfl | hc
    · exact hi
    · exact hm c hc

theorem Memory.above_memWrite {b i : Nat} {v : Slot} {m : Memory} (hi : b < i)
    (hm : Memory.above b m) : Memory.above b (memWrite m i v) := by
  induction m with
  | nil => exact Memory.above_memCons hi hm
  | cons c m ih =>
    obtain ⟨j, w⟩ := c
    have ht : Memory.above b m := fun c hc => hm c (by simp [hc])
    rw [memWrite]
    split
    · exact Memory.above_memCons hi hm
    · split
      · exact Memory.above_memCons hi ht
      · intro c hc
        rcases List.mem_cons.mp hc with rfl | hc
        · exact hm _ (by simp)
        · exact ih ht c hc

theorem Memory.wf_memCons {i : Nat} {v : Slot} {m : Memory} (ha : Memory.above i m)
    (hw : Memory.wf m = true) : Memory.wf (memCons i v m) = true := by
  cases v with
  | none => exact hw
  | some x => exact (Memory.wf_cons i x m).mpr ⟨ha, hw⟩

/-- A write keeps the canonical form. -/
theorem Memory.wf_memWrite {m : Memory} (i : Nat) (v : Slot) (hw : Memory.wf m = true) :
    Memory.wf (memWrite m i v) = true := by
  induction m with
  | nil => exact Memory.wf_memCons (by intro c hc; cases hc) hw
  | cons c m ih =>
    obtain ⟨j, w⟩ := c
    obtain ⟨ha, ht⟩ := (Memory.wf_cons j w m).mp hw
    rw [memWrite]
    split
    · next hlt =>
      refine Memory.wf_memCons ?_ hw
      intro c hc
      rcases List.mem_cons.mp hc with rfl | hc
      · exact hlt
      · exact lt_trans hlt (ha c hc)
    · split
      · next heq => subst heq; exact Memory.wf_memCons ha ht
      · next hlt hne =>
        exact (Memory.wf_cons j w _).mpr
          ⟨Memory.above_memWrite (by omega) ha, ih ht⟩

/-- A write inside the space keeps every listed index inside it. -/
theorem Memory.within_memWrite {size : Nat} {m : Memory} {i : Nat} (v : Slot) (hi : i < size)
    (hm : Memory.within size m = true) : Memory.within size (memWrite m i v) = true := by
  have hcons : ∀ m : Memory, Memory.within size m = true →
      Memory.within size (memCons i v m) = true := by
    intro m hm
    cases v with
    | none => exact hm
    | some x => simpa [memCons, Memory.within, hi] using hm
  induction m with
  | nil => exact hcons [] hm
  | cons c m ih =>
    obtain ⟨j, w⟩ := c
    have ht : j < size ∧ Memory.within size m = true := by
      simpa [Memory.within] using hm
    rw [memWrite]
    split
    · exact hcons _ hm
    · split
      · exact hcons m ht.2
      · have := ih ht.2
        simp only [Memory.within, List.all_cons, Bool.and_eq_true, decide_eq_true_eq] at this ⊢
        exact ⟨ht.1, this⟩

/-- What a canonical memory reads as after a write (20_memory R82 (c)). -/
theorem memRead_memWrite {m : Memory} (i : Nat) (v : Slot) (k : Nat) (hw : Memory.wf m = true) :
    memRead (memWrite m i v) k = if k = i then v else memRead m k := by
  induction m with
  | nil => exact memRead_memCons i v [] k rfl
  | cons c m ih =>
    obtain ⟨j, w⟩ := c
    obtain ⟨ha, ht⟩ := (Memory.wf_cons j w m).mp hw
    rw [memWrite]
    split
    · next hlt =>
      refine memRead_memCons i v _ k ?_
      apply memRead_eq_none_of_above
      intro c hc
      rcases List.mem_cons.mp hc with rfl | hc
      · exact hlt
      · exact lt_trans hlt (ha c hc)
    · split
      · next heq =>
        subst heq
        rw [memRead_memCons i v m k (memRead_eq_none_of_above ha), memRead]
        by_cases hk : k = i
        · simp [hk]
        · simp [hk, Ne.symm hk]
      · next hlt hne =>
        rw [memRead, memRead, ih ht]
        by_cases hj : j = k
        · subst hj; simp [Ne.symm hne]
        · simp [hj]

/-- Reading any memory, canonical or not, at another index than the one written. -/
theorem memRead_memWrite_of_ne {m : Memory} {i k : Nat} (v : Slot) (h : k ≠ i) :
    memRead (memWrite m i v) k = memRead m k := by
  have hcons : ∀ m : Memory, memRead (memCons i v m) k = memRead m k := by
    intro m
    cases v with
    | none => rfl
    | some x => simp [memCons, memRead, Ne.symm h]
  induction m with
  | nil => exact hcons []
  | cons c m ih =>
    obtain ⟨j, w⟩ := c
    rw [memWrite]
    split
    · exact hcons _
    · split
      · next heq => subst heq; rw [hcons, memRead, if_neg (Ne.symm h)]
      · rw [memRead, memRead, ih]

/-- A canonical memory is determined by its reads: equal memories are equal data. -/
theorem Memory.eq_of_reads {m m' : Memory} (hw : Memory.wf m = true) (hw' : Memory.wf m' = true)
    (h : ∀ i, memRead m i = memRead m' i) : m = m' := by
  induction m generalizing m' with
  | nil =>
    cases m' with
    | nil => rfl
    | cons c m' => obtain ⟨j, w⟩ := c; simpa [memRead, Memory.unlisted] using h j
  | cons c m ih =>
    obtain ⟨i, v⟩ := c
    obtain ⟨ha, ht⟩ := (Memory.wf_cons i v m).mp hw
    cases m' with
    | nil => simpa [memRead, Memory.unlisted] using h i
    | cons c' m' =>
      obtain ⟨j, w⟩ := c'
      obtain ⟨ha', ht'⟩ := (Memory.wf_cons j w m').mp hw'
      have hij : i = j := by
        rcases Nat.lt_trichotomy i j with hlt | heq | hgt
        · have := h i
          rw [memRead, if_pos rfl, memRead_eq_none_of_above] at this
          · simp at this
          · intro c hc
            rcases List.mem_cons.mp hc with rfl | hc
            · exact hlt
            · exact lt_trans hlt (ha' c hc)
        · exact heq
        · have := h j
          rw [memRead_eq_none_of_above, memRead, if_pos rfl] at this
          · simp at this
          · intro c hc
            rcases List.mem_cons.mp hc with rfl | hc
            · exact hgt
            · exact lt_trans hgt (ha c hc)
      subst hij
      have hv : v = w := by simpa [memRead] using h i
      subst hv
      refine congrArg _ (ih ht ht' fun k => ?_)
      by_cases hk : i = k
      · subst hk
        rw [memRead_eq_none_of_above ha, memRead_eq_none_of_above ha']
      · simpa [memRead, hk] using h k

end Sys2Proof.Machine
end

