-- ==== Sys2Proof/Laws/Exec.lean ====
section
/-! SUPPORT. Everything an instruction and a step can do, said once: `Succeeds` gives the states an effect function
leaves, `StopsWith` how it can stop, `exec_cases` and `step_cases` the inversion of `exec` and `step`. -/

namespace Sys2Proof.Machine

/-! ## What the two predicates say -/

/-- How an instruction of opcode `o` begun in `s` can stop: with the model's own stop, in no state that meets the
invariant; with a fault that left `s` as it was, one of its row of 60_exceptions R263 if `s` meets the invariant;
inside a push, with SP already written (and HP, in ALLOC). -/
def StopsWith (o : Opcode) (s : State) (e : Stop) : Prop :=
  (∃ f, e = .stuck f ∧ ¬ RunInv s) ∨
  (∃ k j q, e = .raise k j q s ∧ (RunInv s → mayRaise o k = true)) ∨
  (∃ n k, rdNum s .sp 0 = .ok n ∧ (k = .stackOverflow ∨ k = .stackOutOfBounds) ∧
    (((o = .push ∨ o = .call) ∧
        e = .raise k 0 none (s.setReg .sp (some (.addr (wrapW (n.toInt - 1)))))) ∨
      (o = .alloc ∧ ∃ h m : Word64, rdNum s .hp 0 = .ok h ∧ 0 ≤ m.toInt ∧
        e = .raise k 0 none ((s.setReg .hp (some (.addr (wrapW (h.toInt + m.toInt))))).setReg .sp
          (some (.addr (wrapW (n.toInt - 1)))))))) ∨
  (s.reg .sp = none ∧ o = .alloc ∧
    ∃ v, e = .raise .nilRegister 0 (some .sp) (s.setReg .hp (some (.addr v))))

/-- The effect function of `i` begun in `s` ends in `u`, a taken transfer if `b`. -/
def Succeeds (i : Instr) (s : State) (b : Bool) (u : State) : Prop :=
  match i with
  | .nop => b = false ∧ u = s
  | .mov o1 o2 => ∃ r y v w, o1 = .operand (.reg r) ∧ o2 = .operand y ∧ r ≠ .zf ∧
      value s y 2 = .ok v ∧ coerce s r v 1 = .ok w ∧ b = false ∧ u = s.setReg r (some w)
  | .push o1 => ∃ x v, o1 = .operand x ∧ value s x 1 = .ok v ∧ push s v = .ok u ∧ b = false
  | .pop o1 => ∃ r n v w, o1 = .operand (.reg r) ∧ r ≠ .zf ∧ popRead s = .ok (n, v) ∧
      coerce s r v 1 = .ok w ∧ b = false ∧ u = (popCommit s n).setReg r (some w)
  | .alloc o1 => ∃ x k h, o1 = .operand x ∧ value s x 1 = .ok (.int k) ∧ rdNum s .hp 0 = .ok h ∧
      0 ≤ k.toInt ∧ 0 ≤ h.toInt ∧ h.toInt + k.toInt ≤ s.cfg.heapSize ∧
      push (s.setReg .hp (some (.addr (wrapW (h.toInt + k.toInt))))) (.addr h) = .ok u ∧ b = false
  | .store o1 o2 => ∃ x y a v, o1 = .operand x ∧ o2 = .operand y ∧ heapAddr s x 1 = .ok a ∧
      value s y 2 = .ok v ∧ b = false ∧ u = s.writeHeap a (some v)
  | .load o1 o2 => ∃ r y a v w, o1 = .operand (.reg r) ∧ o2 = .operand y ∧ r ≠ .zf ∧
      heapAddr s y 2 = .ok a ∧ memRead s.heap a = some v ∧ coerce s r v 1 = .ok w ∧ b = false ∧
      u = s.setReg r (some w)
  | .call o1 => ∃ (t p : Word64) (s' : State), o1 = .operand (.addr .prog t) ∧
      target s (.addr .prog t) 1 = .ok t ∧ push s (.addr (wrapW (p.toInt + 2))) = .ok s' ∧ b = true ∧
      u = s'.setReg .pc (some (.addr t))
  | .ret => ∃ n v w, popRead s = .ok (n, v) ∧ coerce s .pc v 0 = .ok w ∧ b = true ∧
      u = (popCommit s n).setReg .pc (some w)
  | .add o1 o2 | .sub o1 o2 => ∃ r n d v res f, o1 = .operand (.reg r) ∧
      o2 = .operand (.imm (.int n)) ∧ r ≠ .zf ∧ s.reg r = some d ∧
      arithResult s r f d n = .ok (v, res) ∧ b = false ∧
      u = writeZf (s.setReg r (some v)) (isZero res)
  | .jmp o1 => ∃ t, o1 = .operand (.addr .prog t) ∧ b = true ∧ u = s.setReg .pc (some (.addr t))
  | .je _ | .jne _ => ∃ t, (b = true ∧ u = s.setReg .pc (some (.addr t))) ∨ (b = false ∧ u = s)
  | .eq _ _ | .ne _ _ | .lt _ _ | .le _ _ => ∃ c, b = false ∧ u = writeZf s c

/-! ## The registers the invariant fixes -/

theorem addr_of_holdsAddr {v : Slot} (h : holdsAddr v = true) : ∃ n, v = some (.addr n) := by
  unfold holdsAddr at h
  split at h
  · exact ⟨_, rfl⟩
  · cases h

theorem RunInv.pc_eq {s : State} (h : RunInv s) : ∃ n, s.reg .pc = some (.addr n) :=
  addr_of_holdsAddr h.pcAddr

theorem RunInv.sp_eq {s : State} (h : RunInv s) : ∃ n, s.reg .sp = some (.addr n) :=
  addr_of_holdsAddr h.spAddr

theorem RunInv.hp_eq {s : State} (h : RunInv s) : ∃ n, s.reg .hp = some (.addr n) :=
  addr_of_holdsAddr h.hpAddr

theorem RunInv.bp_eq {s : State} (h : RunInv s) : s.reg .bp = none ∨ ∃ n, s.reg .bp = some (.addr n) :=
  h.bpAddr.imp id addr_of_holdsAddr

/-! ## How the parts of an effect function stop -/

theorem StopsWith.keeps {o : Opcode} {s : State} {k : FaultKind} {j : Fin 3} {q : Option Reg}
    (h : mayRaise o k = true) : StopsWith o s (.raise k j q s) :=
  .inr (.inl ⟨_, _, _, rfl, fun _ => h⟩)

/-- A register that holds an Address whenever the invariant holds. -/
theorem stopsWith_of_rdNum {o : Opcode} {s : State} {r : Reg} {j : Fin 3} {e : Stop}
    (hr : RunInv s → ∃ n, s.reg r = some (.addr n)) (h : rdNum s r j = .error e) : StopsWith o s e := by
  have hn : ¬ RunInv s := by
    intro hi
    obtain ⟨n, hn⟩ := hr hi
    rw [rdNum_of_addr j hn] at h
    cases h
  rcases rdNum_eq_error.mp h with ⟨-, rfl⟩ | ⟨v, -, -, rfl⟩
  · exact .inr (.inl ⟨_, _, _, rfl, fun hi => absurd hi hn⟩)
  · exact .inl ⟨_, rfl, hn⟩

theorem stopsWith_of_value {o : Opcode} {s : State} {x : Operand} {j : Fin 3} {e : Stop}
    (h : value s x j = .error e) (h1 : mayRaise o .nilRegister = true)
    (h2 : mayRaise o .stackOutOfBounds = true) (h3 : mayRaise o .emptySlot = true)
    (h4 : mayRaise o .unsupportedOperand = true) : StopsWith o s e := by
  rcases value_eq_error h with ⟨r, h⟩ | ⟨b, h⟩ | ⟨k, hk, rfl⟩
  · exact .inr (.inl ⟨_, _, _, (rd_eq_error.mp h).2, fun _ => h1⟩)
  · cases b with
    | sp => exact stopsWith_of_rdNum RunInv.sp_eq h
    | bp =>
      rcases rdNum_eq_error.mp h with ⟨-, rfl⟩ | ⟨v, hv, hv', rfl⟩
      · exact .inr (.inl ⟨_, _, _, rfl, fun _ => h1⟩)
      · refine .inl ⟨_, rfl, fun hi => ?_⟩
        have hv : s.reg .bp = some v := hv
        rcases hi.bp_eq with hb | ⟨n, hb⟩ <;> rw [hv] at hb <;> cases hb
        cases hv'
  · rcases hk with rfl | rfl | rfl <;> exact .keeps (by assumption)

theorem stopsWith_of_heapAddr {o : Opcode} {s : State} {x : Operand} {j : Fin 3} {e : Stop}
    (h : heapAddr s x j = .error e) (h1 : mayRaise o .nilRegister = true)
    (h2 : mayRaise o .typeMismatch = true) (h3 : mayRaise o .heapOutOfBounds = true)
    (h4 : mayRaise o .unsupportedOperand = true) : StopsWith o s e := by
  rcases heapAddr_eq_error h with ⟨r, h⟩ | ⟨k, q, hk, rfl⟩
  · exact .inr (.inl ⟨_, _, _, (rd_eq_error.mp h).2, fun _ => h1⟩)
  · rcases hk with rfl | rfl | rfl <;> exact .keeps (by assumption)

theorem stopsWith_of_popRead {o : Opcode} {s : State} {e : Stop} (h : popRead s = .error e)
    (h1 : mayRaise o .stackUnderflow = true) (h2 : mayRaise o .stackOutOfBounds = true)
    (h3 : mayRaise o .emptySlot = true) : StopsWith o s e := by
  rcases popRead_eq_error h with h | ⟨n, k, hn, hk, rfl⟩
  · exact stopsWith_of_rdNum RunInv.sp_eq h
  · rcases hk with rfl | rfl | rfl <;> exact .keeps (by assumption)

theorem stopsWith_of_push {o : Opcode} {s : State} {v : Storable} {e : Stop} (h : push s v = .error e)
    (ho : o = .push ∨ o = .call) : StopsWith o s e := by
  rcases push_eq_error h with h | ⟨n, k, hn, hk, rfl⟩
  · exact stopsWith_of_rdNum RunInv.sp_eq h
  · exact .inr (.inr (.inl ⟨n, k, hn, hk, .inl ⟨ho, rfl⟩⟩))

theorem stopsWith_of_needValue {o : Opcode} {s : State} {x : Operand} {j : Fin 3} {e : Stop}
    (h : needValue s x j = .error e) (h1 : mayRaise o .unsupportedOperand = true) : StopsWith o s e := by
  rw [(needValue_eq_error.mp h).2]
  exact .keeps h1

theorem stopsWith_of_needHeapAddr {o : Opcode} {s : State} {x : Operand} {j : Fin 3} {e : Stop}
    (h : needHeapAddr s x j = .error e) (h1 : mayRaise o .unsupportedOperand = true) :
    StopsWith o s e := by
  rw [(needHeapAddr_eq_error.mp h).2]
  exact .keeps h1

theorem stopsWith_of_dstReg {o : Opcode} {s : State} {x : Operand} {j : Fin 3} {e : Stop}
    (h : dstReg s x j = .error e) (h1 : mayRaise o .unsupportedOperand = true) : StopsWith o s e := by
  rw [dstReg_eq_error h]
  exact .keeps h1

theorem stopsWith_of_coerce {o : Opcode} {s : State} {r : Reg} {v : Storable} {j : Fin 3} {e : Stop}
    (h : coerce s r v j = .error e) (h1 : mayRaise o .typeMismatch = true) : StopsWith o s e := by
  rw [(coerce_eq_error h).2.2]
  exact .keeps h1

theorem stopsWith_of_twoValues {o : Opcode} {s : State} {x y : Operand} {e : Stop}
    (h : twoValues s x y = .error e) (h1 : mayRaise o .nilRegister = true)
    (h2 : mayRaise o .stackOutOfBounds = true) (h3 : mayRaise o .emptySlot = true)
    (h4 : mayRaise o .unsupportedOperand = true) : StopsWith o s e := by
  rcases eff_bind_eq_error.mp h with h | ⟨_, -, h⟩
  · exact stopsWith_of_needValue h h4
  rcases eff_bind_eq_error.mp h with h | ⟨_, -, h⟩
  · exact stopsWith_of_needValue h h4
  rcases eff_bind_eq_error.mp h with h | ⟨_, -, h⟩
  · exact stopsWith_of_value h h1 h2 h3 h4
  rcases eff_bind_eq_error.mp h with h | ⟨_, -, h⟩
  · exact stopsWith_of_value h h1 h2 h3 h4
  cases h

theorem needInt_eq_ok {s : State} {v : Storable} {j : Fin 3} {n : Word64} :
    needInt s v j = .ok n ↔ v = .int n := by
  cases v <;> simp [needInt]

theorem needImmInt_eq_ok {s : State} {x : Operand} {j : Fin 3} {n : Word64} :
    needImmInt s x j = .ok n ↔ x = .imm (.int n) := by
  cases x with
  | imm v => cases v <;> simp [needImmInt]
  | reg r => simp [needImmInt]
  | off b d => simp [needImmInt]
  | addr sp m => simp [needImmInt]

/-- The result of ADD and SUB and its number agree (43_arithmetic R196, R197). -/
theorem numBits_of_arithResult {s : State} {r : Reg} {f : Int → Int → Int} {d v : Storable}
    {n res : Word64} (h : arithResult s r f d n = .ok (v, res)) : numBits v = some res := by
  cases d <;> simp [arithResult] at h <;> obtain ⟨rfl, rfl⟩ := h <;> rfl

theorem arith_eq_ok {s u : State} {f : Int → Int → Int} {x y : Operand} {b : Bool}
    (h : arith s f x y = .ok (b, u)) :
    ∃ r n d v res, x = .reg r ∧ y = .imm (.int n) ∧ r ≠ .zf ∧ s.reg r = some d ∧
      arithResult s r f d n = .ok (v, res) ∧ b = false ∧
      u = writeZf (s.setReg r (some v)) (isZero res) := by
  obtain ⟨r, hr, h⟩ := eff_bind_eq_ok.mp h
  obtain ⟨n, hn, h⟩ := eff_bind_eq_ok.mp h
  obtain ⟨d, hd, h⟩ := eff_bind_eq_ok.mp h
  obtain ⟨⟨v, res⟩, hv, h⟩ := eff_bind_eq_ok.mp h
  cases h
  obtain ⟨rfl, hz⟩ := dstReg_eq_ok.mp hr
  exact ⟨r, n, d, v, res, rfl, needImmInt_eq_ok.mp hn, hz, rd_eq_ok.mp hd, hv, rfl, rfl⟩

theorem stopsWith_of_arith {o : Opcode} {s : State} {f : Int → Int → Int} {x y : Operand} {e : Stop}
    (h : arith s f x y = .error e) (h1 : mayRaise o .nilRegister = true)
    (h2 : mayRaise o .typeMismatch = true) (h3 : mayRaise o .unsupportedOperand = true) :
    StopsWith o s e := by
  rcases eff_bind_eq_error.mp h with h | ⟨_, -, h⟩
  · exact stopsWith_of_dstReg h h3
  rcases eff_bind_eq_error.mp h with h | ⟨_, -, h⟩
  · unfold needImmInt at h
    split at h <;> first
      | cases h; done
      | rw [raise_eq_error] at h; subst h; exact .keeps (by assumption)
  rcases eff_bind_eq_error.mp h with h | ⟨_, -, h⟩
  · rw [(rd_eq_error.mp h).2]
    exact .keeps h1
  rcases eff_bind_eq_error.mp h with h | ⟨_, -, h⟩
  · unfold arithResult at h
    split at h <;> first
      | cases h; done
      | rw [raise_eq_error] at h; subst h; exact .keeps (by assumption)
  cases h

theorem jumpIf_eq_ok {s u : State} {c : Bool} {x : Operand} {b : Bool}
    (h : jumpIf s c x = .ok (b, u)) :
    ∃ t, (b = true ∧ u = s.setReg .pc (some (.addr t))) ∨ (b = false ∧ u = s) := by
  obtain ⟨t, ht, h⟩ := eff_bind_eq_ok.mp h
  obtain ⟨c', hc, h⟩ := eff_bind_eq_ok.mp h
  refine ⟨t, ?_⟩
  split at h <;> cases h
  · exact .inl ⟨rfl, rfl⟩
  · exact .inr ⟨rfl, rfl⟩

theorem stopsWith_of_jumpIf {o : Opcode} {s : State} {c : Bool} {x : Operand} {e : Stop}
    (h : jumpIf s c x = .error e) (h1 : mayRaise o .nilRegister = true)
    (h2 : mayRaise o .unsupportedOperand = true) : StopsWith o s e := by
  rcases eff_bind_eq_error.mp h with h | ⟨_, -, h⟩
  · rw [target_eq_error h]
    exact .keeps h2
  rcases eff_bind_eq_error.mp h with h | ⟨_, -, h⟩
  · rcases eff_bind_eq_error.mp h with h | ⟨_, -, h⟩
    · rw [(rd_eq_error.mp h).2]
      exact .keeps h1
    · cases h
  split at h <;> cases h

theorem stopsWith_of_allocate {s : State} {n : Word64} {e : Stop} (h : allocate s n = .error e) :
    StopsWith .alloc s e := by
  rcases eff_bind_eq_error.mp h with h | ⟨a, ha, h⟩
  · exact stopsWith_of_rdNum RunInv.hp_eq h
  split at h
  · rw [raise_eq_error] at h
    subst h
    exact .keeps rfl
  · rcases eff_bind_eq_error.mp h with h | ⟨_, -, h⟩
    · rcases push_eq_error h with h | ⟨m, k, hm, hk, rfl⟩
      · rcases rdNum_eq_error.mp h with ⟨hs, rfl⟩ | ⟨v, hs, hv, rfl⟩
        · exact .inr (.inr (.inr ⟨by simpa using hs, rfl, _, rfl⟩))
        · exact stopsWith_of_rdNum (j := 0) RunInv.sp_eq
            (rdNum_eq_error.mpr (.inr ⟨v, by simpa using hs, hv, rfl⟩))
      · refine .inr (.inr (.inl ⟨m, k, ?_, hk, .inr ⟨rfl, a, n, ha, by omega, rfl⟩⟩))
        obtain ⟨v, hv, hv'⟩ := rdNum_eq_ok.mp hm
        exact rdNum_eq_ok.mpr ⟨v, by simpa using hv, hv'⟩
    · cases h

/-! ## The three formats -/

theorem run0_cases {o : Opcode} {s : State} {eff : Word64 → Effect} (S : Bool → State → Prop)
    (hs : ∀ p b u, eff p = .ok (b, u) → S b u) (he : ∀ p e, eff p = .error e → StopsWith o s e) :
    ∃ c : Effect, run0 o s eff = conclude o s c ∧ (∀ b u, c = .ok (b, u) → S b u) ∧
      ∀ e, c = .error e → StopsWith o s e := by
  obtain ⟨c, h1, h2, h3⟩ := run0_eq (o := o) (s := s) eff
  refine ⟨c, h1, ?_, ?_⟩
  · intro b u hb
    obtain ⟨p, hx⟩ := h2 _ hb
    exact hs p b u hx
  · intro e hst
    rcases h3 e hst with h | h | ⟨p, hx⟩
    · exact stopsWith_of_rdNum RunInv.pc_eq h
    · obtain ⟨⟨ho, -⟩, rfl⟩ := dispatchCheck_eq_error.mp h
      exact .keeps (by simp [mayRaise, ho])
    · exact he p e hx

theorem run1_cases {o : Opcode} {s : State} {w : Word} {eff : Word64 → Operand → Effect}
    (S : Bool → State → Prop) (hs : ∀ p x b u, w = .operand x → eff p x = .ok (b, u) → S b u)
    (he : ∀ p x e, w = .operand x → eff p x = .error e → StopsWith o s e) :
    ∃ c : Effect, run1 o w s eff = conclude o s c ∧ (∀ b u, c = .ok (b, u) → S b u) ∧
      ∀ e, c = .error e → StopsWith o s e := by
  obtain ⟨c, h1, h2, h3⟩ := run1_eq (o := o) (s := s) w eff
  refine ⟨c, h1, ?_, ?_⟩
  · intro b u hb
    obtain ⟨p, x, hw, hx⟩ := h2 _ hb
    exact hs p x b u hw hx
  · intro e hst
    rcases h3 e hst with h | h | ⟨j, rfl⟩ | ⟨p, x, hw, hx⟩
    · exact stopsWith_of_rdNum RunInv.pc_eq h
    · obtain ⟨⟨ho, -⟩, rfl⟩ := dispatchCheck_eq_error.mp h
      exact .keeps (by simp [mayRaise, ho])
    · exact .keeps (by simp [mayRaise])
    · exact he p x e hw hx

theorem run2_cases {o : Opcode} {s : State} {w w' : Word} {eff : Word64 → Operand → Operand → Effect}
    (S : Bool → State → Prop)
    (hs : ∀ p x y b u, w = .operand x → w' = .operand y → eff p x y = .ok (b, u) → S b u)
    (he : ∀ p x y e, w = .operand x → w' = .operand y → eff p x y = .error e → StopsWith o s e) :
    ∃ c : Effect, run2 o w w' s eff = conclude o s c ∧ (∀ b u, c = .ok (b, u) → S b u) ∧
      ∀ e, c = .error e → StopsWith o s e := by
  obtain ⟨c, h1, h2, h3⟩ := run2_eq (o := o) (s := s) w w' eff
  refine ⟨c, h1, ?_, ?_⟩
  · intro b u hb
    obtain ⟨p, x, y, hw, hw', hx⟩ := h2 _ hb
    exact hs p x y b u hw hw' hx
  · intro e hst
    rcases h3 e hst with h | h | ⟨j, rfl⟩ | ⟨p, x, y, hw, hw', hx⟩
    · exact stopsWith_of_rdNum RunInv.pc_eq h
    · obtain ⟨⟨ho, -⟩, rfl⟩ := dispatchCheck_eq_error.mp h
      exact .keeps (by simp [mayRaise, ho])
    · exact .keeps (by simp [mayRaise])
    · exact he p x y e hw hw' hx

/-! ## Every instruction -/

/-- What an instruction comes to, for every instruction and every state. -/
theorem exec_shape (i : Instr) (s : State) :
    ∃ c : Effect, exec i s = conclude i.opcode s c ∧ (∀ b u, c = .ok (b, u) → Succeeds i s b u) ∧
      ∀ e, c = .error e → StopsWith i.opcode s e := by
  cases i with
  | nop =>
    refine run0_cases _ ?_ ?_
    · intro p b u h; cases h; exact ⟨rfl, rfl⟩
    · intro p e h; cases h
  | mov o1 o2 =>
    refine run2_cases _ ?_ ?_
    · intro p x y b u hw hw' h
      obtain ⟨r, hr, h⟩ := eff_bind_eq_ok.mp h
      obtain ⟨_, -, h⟩ := eff_bind_eq_ok.mp h
      obtain ⟨v, hv, h⟩ := eff_bind_eq_ok.mp h
      obtain ⟨w, hc, h⟩ := eff_bind_eq_ok.mp h
      cases h
      obtain ⟨rfl, hz⟩ := dstReg_eq_ok.mp hr
      exact ⟨r, y, v, w, hw, hw', hz, hv, hc, rfl, rfl⟩
    · intro p x y e hw hw' h
      rcases eff_bind_eq_error.mp h with h | ⟨_, -, h⟩
      · exact stopsWith_of_dstReg h rfl
      rcases eff_bind_eq_error.mp h with h | ⟨_, -, h⟩
      · exact stopsWith_of_needValue h rfl
      rcases eff_bind_eq_error.mp h with h | ⟨_, -, h⟩
      · exact stopsWith_of_value h rfl rfl rfl rfl
      rcases eff_bind_eq_error.mp h with h | ⟨_, -, h⟩
      · exact stopsWith_of_coerce h rfl
      cases h
  | push o1 =>
    refine run1_cases _ ?_ ?_
    · intro p x b u hw h
      obtain ⟨_, -, h⟩ := eff_bind_eq_ok.mp h
      obtain ⟨v, hv, h⟩ := eff_bind_eq_ok.mp h
      obtain ⟨t, ht, h⟩ := eff_bind_eq_ok.mp h
      cases h
      exact ⟨x, v, hw, hv, ht, rfl⟩
    · intro p x e hw h
      rcases eff_bind_eq_error.mp h with h | ⟨_, -, h⟩
      · exact stopsWith_of_needValue h rfl
      rcases eff_bind_eq_error.mp h with h | ⟨_, -, h⟩
      · exact stopsWith_of_value h rfl rfl rfl rfl
      rcases eff_bind_eq_error.mp h with h | ⟨_, -, h⟩
      · exact stopsWith_of_push h (.inl rfl)
      cases h
  | pop o1 =>
    refine run1_cases _ ?_ ?_
    · intro p x b u hw h
      obtain ⟨r, hr, h⟩ := eff_bind_eq_ok.mp h
      obtain ⟨⟨n, v⟩, hn, h⟩ := eff_bind_eq_ok.mp h
      obtain ⟨w, hc, h⟩ := eff_bind_eq_ok.mp h
      cases h
      obtain ⟨rfl, hz⟩ := dstReg_eq_ok.mp hr
      exact ⟨r, n, v, w, hw, hz, hn, hc, rfl, rfl⟩
    · intro p x e hw h
      rcases eff_bind_eq_error.mp h with h | ⟨_, -, h⟩
      · exact stopsWith_of_dstReg h rfl
      rcases eff_bind_eq_error.mp h with h | ⟨_, -, h⟩
      · exact stopsWith_of_popRead h rfl rfl rfl
      rcases eff_bind_eq_error.mp h with h | ⟨_, -, h⟩
      · exact stopsWith_of_coerce h rfl
      cases h
  | alloc o1 =>
    refine run1_cases _ ?_ ?_
    · intro p x b u hw h
      obtain ⟨_, -, h⟩ := eff_bind_eq_ok.mp h
      obtain ⟨v, hv, h⟩ := eff_bind_eq_ok.mp h
      obtain ⟨k, hk, h⟩ := eff_bind_eq_ok.mp h
      obtain ⟨a, ha, h⟩ := eff_bind_eq_ok.mp h
      rw [needInt_eq_ok.mp hk] at hv
      split at h
      · exact absurd h (raise_ne_ok _ _ _ _ _)
      · obtain ⟨t, ht, h⟩ := eff_bind_eq_ok.mp h
        cases h
        exact ⟨x, k, a, hw, hv, ha, by omega, by omega, by omega, ht, rfl⟩
    · intro p x e hw h
      rcases eff_bind_eq_error.mp h with h | ⟨_, -, h⟩
      · exact stopsWith_of_needValue h rfl
      rcases eff_bind_eq_error.mp h with h | ⟨v, -, h⟩
      · exact stopsWith_of_value h rfl rfl rfl rfl
      rcases eff_bind_eq_error.mp h with h | ⟨k, -, h⟩
      · cases v <;> simp [needInt] at h <;> subst h <;> exact .keeps rfl
      · exact stopsWith_of_allocate h
  | store o1 o2 =>
    refine run2_cases _ ?_ ?_
    · intro p x y b u hw hw' h
      obtain ⟨_, -, h⟩ := eff_bind_eq_ok.mp h
      obtain ⟨_, -, h⟩ := eff_bind_eq_ok.mp h
      obtain ⟨a, ha, h⟩ := eff_bind_eq_ok.mp h
      obtain ⟨v, hv, h⟩ := eff_bind_eq_ok.mp h
      cases h
      exact ⟨x, y, a, v, hw, hw', ha, hv, rfl, rfl⟩
    · intro p x y e hw hw' h
      rcases eff_bind_eq_error.mp h with h | ⟨_, -, h⟩
      · exact stopsWith_of_needHeapAddr h rfl
      rcases eff_bind_eq_error.mp h with h | ⟨_, -, h⟩
      · exact stopsWith_of_needValue h rfl
      rcases eff_bind_eq_error.mp h with h | ⟨_, -, h⟩
      · exact stopsWith_of_heapAddr h rfl rfl rfl rfl
      rcases eff_bind_eq_error.mp h with h | ⟨_, -, h⟩
      · exact stopsWith_of_value h rfl rfl rfl rfl
      cases h
  | load o1 o2 =>
    refine run2_cases _ ?_ ?_
    · intro p x y b u hw hw' h
      obtain ⟨r, hr, h⟩ := eff_bind_eq_ok.mp h
      obtain ⟨_, -, h⟩ := eff_bind_eq_ok.mp h
      obtain ⟨a, ha, h⟩ := eff_bind_eq_ok.mp h
      obtain ⟨v, hv, h⟩ := eff_bind_eq_ok.mp h
      obtain ⟨w, hc, h⟩ := eff_bind_eq_ok.mp h
      cases h
      obtain ⟨rfl, hz⟩ := dstReg_eq_ok.mp hr
      exact ⟨r, y, a, v, w, hw, hw', hz, ha, needSlot_eq_ok.mp hv, hc, rfl, rfl⟩
    · intro p x y e hw hw' h
      rcases eff_bind_eq_error.mp h with h | ⟨_, -, h⟩
      · exact stopsWith_of_dstReg h rfl
      rcases eff_bind_eq_error.mp h with h | ⟨_, -, h⟩
      · exact stopsWith_of_needHeapAddr h rfl
      rcases eff_bind_eq_error.mp h with h | ⟨_, -, h⟩
      · exact stopsWith_of_heapAddr h rfl rfl rfl rfl
      rcases eff_bind_eq_error.mp h with h | ⟨_, -, h⟩
      · rw [(needSlot_eq_error.mp h).2]
        exact .keeps rfl
      rcases eff_bind_eq_error.mp h with h | ⟨_, -, h⟩
      · exact stopsWith_of_coerce h rfl
      cases h
  | call o1 =>
    refine run1_cases _ ?_ ?_
    · intro p x b u hw h
      obtain ⟨t, ht, h⟩ := eff_bind_eq_ok.mp h
      obtain ⟨s', hs, h⟩ := eff_bind_eq_ok.mp h
      cases h
      obtain ⟨rfl, -⟩ := target_eq_ok.mp ht
      exact ⟨t, p, s', hw, ht, hs, rfl, rfl⟩
    · intro p x e hw h
      rcases eff_bind_eq_error.mp h with h | ⟨_, -, h⟩
      · rw [target_eq_error h]
        exact .keeps rfl
      rcases eff_bind_eq_error.mp h with h | ⟨_, -, h⟩
      · exact stopsWith_of_push h (.inr rfl)
      cases h
  | ret =>
    refine run0_cases _ ?_ ?_
    · intro p b u h
      obtain ⟨⟨n, v⟩, hn, h⟩ := eff_bind_eq_ok.mp h
      obtain ⟨w, hc, h⟩ := eff_bind_eq_ok.mp h
      cases h
      exact ⟨n, v, w, hn, hc, rfl, rfl⟩
    · intro p e h
      rcases eff_bind_eq_error.mp h with h | ⟨_, -, h⟩
      · exact stopsWith_of_popRead h rfl rfl rfl
      rcases eff_bind_eq_error.mp h with h | ⟨_, -, h⟩
      · exact stopsWith_of_coerce h rfl
      cases h
  | add o1 o2 | sub o1 o2 =>
    refine run2_cases _ ?_ ?_
    · intro p x y b u hw hw' h
      obtain ⟨r, n, d, v, res, rfl, rfl, hr⟩ := arith_eq_ok h
      exact ⟨r, n, d, v, res, _, hw, hw', hr⟩
    · intro p x y e hw hw' h
      exact stopsWith_of_arith h rfl rfl rfl
  | jmp o1 =>
    refine run1_cases _ ?_ ?_
    · intro p x b u hw h
      obtain ⟨t, ht, h⟩ := eff_bind_eq_ok.mp h
      cases h
      obtain ⟨rfl, -⟩ := target_eq_ok.mp ht
      exact ⟨t, hw, rfl, rfl⟩
    · intro p x e hw h
      rcases eff_bind_eq_error.mp h with h | ⟨_, -, h⟩
      · rw [target_eq_error h]
        exact .keeps rfl
      cases h
  | je o1 | jne o1 =>
    refine run1_cases _ ?_ ?_
    · intro p x b u hw h
      exact jumpIf_eq_ok h
    · intro p x e hw h
      exact stopsWith_of_jumpIf h rfl rfl
  | eq o1 o2 | ne o1 o2 =>
    refine run2_cases _ ?_ ?_
    · intro p x y b u hw hw' h
      obtain ⟨_, -, h⟩ := eff_bind_eq_ok.mp h
      cases h
      exact ⟨_, rfl, rfl⟩
    · intro p x y e hw hw' h
      rcases eff_bind_eq_error.mp h with h | ⟨_, -, h⟩
      · exact stopsWith_of_twoValues h rfl rfl rfl rfl
      cases h
  | lt o1 o2 | le o1 o2 =>
    refine run2_cases _ ?_ ?_
    · intro p x y b u hw hw' h
      obtain ⟨_, -, h⟩ := eff_bind_eq_ok.mp h
      obtain ⟨_, -, h⟩ := eff_bind_eq_ok.mp h
      cases h
      exact ⟨_, rfl, rfl⟩
    · intro p x y e hw hw' h
      rcases eff_bind_eq_error.mp h with h | ⟨_, -, h⟩
      · exact stopsWith_of_twoValues h rfl rfl rfl rfl
      rcases eff_bind_eq_error.mp h with h | ⟨_, -, h⟩
      · obtain ⟨j, rfl⟩ := orderedPair_eq_error h
        exact .keeps rfl
      cases h

/-- The inversion of `exec`: a taken transfer, an advance, or a fault taken in the state the instruction left. -/
theorem exec_cases {i : Instr} {s t : State} (h : exec i s = .next t) :
    Succeeds i s true t ∨
    (∃ u v n, Succeeds i s false u ∧ u.reg .pc = some v ∧ numBits v = some n ∧
      t = u.setReg .pc (some (.addr (wrapW (n.toInt + 1 + i.opcode.arity))))) ∨
    ∃ k j r left, StopsWith i.opcode s (.raise k j r left) ∧
      t = left.takeFault
        { kind := k, pc := faultPc s, opcode := some i.opcode, operand := j, reg := r } := by
  obtain ⟨c, h1, h2, h3⟩ := exec_shape i s
  rw [h1] at h
  rcases conclude_eq_next h with hc | ⟨u, v, n, hc, hu⟩ | ⟨k, j, r, left, hc, ht⟩
  · exact .inl (h2 _ _ hc)
  · exact .inr (.inl ⟨u, v, n, h2 _ _ hc, hu⟩)
  · exact .inr (.inr ⟨k, j, r, left, h3 _ hc, ht⟩)

/-- What a fault leaves: everything, but for SP (and HP in ALLOC) inside a push (60_exceptions R260). -/
theorem StopsWith.left_eq {o : Opcode} {s left : State} {k : FaultKind} {j : Fin 3} {r : Option Reg}
    (h : StopsWith o s (.raise k j r left)) :
    left = s ∨ (∃ v, (o = .push ∨ o = .call) ∧ left = s.setReg .sp (some (.addr v))) ∨
      (∃ v w, o = .alloc ∧ left = (s.setReg .hp (some (.addr v))).setReg .sp (some (.addr w))) ∨
      ∃ v, o = .alloc ∧ left = s.setReg .hp (some (.addr v)) := by
  rcases h with ⟨f, h, -⟩ | ⟨k', j', q', h, -⟩ |
    ⟨n, k', hn, hk, ⟨ho, h⟩ | ⟨ho, a, m, -, -, h⟩⟩ | ⟨hs, ho, v, h⟩ <;> cases h
  · exact .inl rfl
  · exact .inr (.inl ⟨_, ho, rfl⟩)
  · exact .inr (.inr (.inl ⟨_, _, ho, rfl⟩))
  · exact .inr (.inr (.inr ⟨_, ho, rfl⟩))

/-! ## The step -/

theorem settle_eq_next {o : Option Opcode} {s t : State} {e : Stop} (h : settle o s e = .next t) :
    ∃ k j r left, e = .raise k j r left ∧
      t = left.takeFault { kind := k, pc := faultPc s, opcode := o, operand := j, reg := r } := by
  cases e with
  | raise k j r left => exact ⟨k, j, r, left, rfl, by simpa [settle] using h.symm⟩
  | stuck f => simp [settle] at h

/-- How a fetch stops: reading PC, or with a fault of the fetch at the instruction's own index, which leaves the
state as it was. -/
theorem fetch_eq_stop {s : State} {o : Option Opcode} {e : Stop} (h : fetch s = .stop o e) :
    s.fault = none ∧
      ((o = none ∧ currentPc s = .error e) ∨
        ∃ p k j, currentPc s = .ok p ∧ p.toInt < s.progLen ∧ e = .raise k j none s ∧
          ((o = none ∧ k = .unsupportedWord ∧ fetchOpcode s p = .error e) ∨
            ∃ q, o = some q ∧ fetchOpcode s p = .ok q ∧ mayRaise q k = true)) := by
  unfold fetch at h
  split at h
  · cases h
  · next hf =>
    refine ⟨by simpa using hf, ?_⟩
    split at h
    · next e' he => cases h; exact .inl ⟨rfl, he⟩
    · next p hp =>
      split at h
      · cases h
      · next hlt =>
        refine .inr ⟨p, ?_⟩
        unfold fetchAt at h
        split at h
        · next e' he =>
          cases h
          exact ⟨_, _, hp, by omega, fetchOpcode_eq_error he, .inl ⟨rfl, rfl, he⟩⟩
        · next q hq =>
          split at h
          · next e' he =>
            cases h
            obtain ⟨⟨hx, -⟩, rfl⟩ := dispatchCheck_eq_error.mp he
            exact ⟨_, _, hp, by omega, rfl, .inr ⟨q, rfl, hq, by simp [mayRaise, hx]⟩⟩
          · split at h
            · next e' he =>
              cases h
              unfold fetchOperands at he
              split at he
              · rw [raise_eq_error] at he
                subst he
                exact ⟨_, _, hp, by omega, rfl, .inr ⟨q, rfl, hq, by simp [mayRaise]⟩⟩
              · cases he
            · cases h

/-- The inversion of `step`: nothing happened, a fault of the fetch was taken, or an instruction ran. -/
theorem step_cases {s t : State} (h : step s = .next t) :
    t = s ∨
    (∃ o k j r, s.fault = none ∧
      t = s.takeFault { kind := k, pc := faultPc s, opcode := o, operand := j, reg := r }) ∨
    ∃ i, fetch s = .run i ∧ exec i s = .next t := by
  unfold step at h
  split at h
  · left
    simpa using h.symm
  · next o e he =>
    right; left
    obtain ⟨k, j, r, left, rfl, ht⟩ := settle_eq_next h
    obtain ⟨hf, ⟨-, hx⟩ | ⟨p, k', j', -, -, hx, -⟩⟩ := fetch_eq_stop he
    · rcases rdNum_eq_error.mp hx with ⟨-, hx⟩ | ⟨v, -, -, hx⟩ <;> cases hx
      exact ⟨_, _, _, _, hf, ht⟩
    · cases hx
      exact ⟨_, _, _, _, hf, ht⟩
  · next i hi => exact .inr (.inr ⟨i, hi, h⟩)

end Sys2Proof.Machine
end

