-- ==== Sys2Proof/Laws/PerInstr.lean ====
section
/-! SUPPORT. Facts stated of every instruction as syntax, one lemma per constructor. -/

namespace Sys2Proof.Laws

/-- The operand words of an instruction are as many as its opcode's arity, its encoding has `1 + arity` words
(30_encoding R100), and opcode and words give the instruction back. -/
def OperandShape.Statement (i : Instr) : Prop :=
  i.operands.length = i.opcode.arity ∧ (encode i).length = 1 + i.opcode.arity ∧
    Instr.ofWords i.opcode (i.operands.getD 0 .invalid) (i.operands.getD 1 .invalid) = i

theorem OperandShape.nop : OperandShape.Statement .nop := ⟨rfl, rfl, rfl⟩

theorem OperandShape.mov (a b : Word) : OperandShape.Statement (.mov a b) := ⟨rfl, rfl, rfl⟩

theorem OperandShape.push (a : Word) : OperandShape.Statement (.push a) := ⟨rfl, rfl, rfl⟩

theorem OperandShape.pop (a : Word) : OperandShape.Statement (.pop a) := ⟨rfl, rfl, rfl⟩

theorem OperandShape.alloc (a : Word) : OperandShape.Statement (.alloc a) := ⟨rfl, rfl, rfl⟩

theorem OperandShape.store (a b : Word) : OperandShape.Statement (.store a b) := ⟨rfl, rfl, rfl⟩

theorem OperandShape.load (a b : Word) : OperandShape.Statement (.load a b) := ⟨rfl, rfl, rfl⟩

theorem OperandShape.call (a : Word) : OperandShape.Statement (.call a) := ⟨rfl, rfl, rfl⟩

theorem OperandShape.ret : OperandShape.Statement .ret := ⟨rfl, rfl, rfl⟩

theorem OperandShape.add (a b : Word) : OperandShape.Statement (.add a b) := ⟨rfl, rfl, rfl⟩

theorem OperandShape.sub (a b : Word) : OperandShape.Statement (.sub a b) := ⟨rfl, rfl, rfl⟩

theorem OperandShape.jmp (a : Word) : OperandShape.Statement (.jmp a) := ⟨rfl, rfl, rfl⟩

theorem OperandShape.je (a : Word) : OperandShape.Statement (.je a) := ⟨rfl, rfl, rfl⟩

theorem OperandShape.jne (a : Word) : OperandShape.Statement (.jne a) := ⟨rfl, rfl, rfl⟩

theorem OperandShape.eq (a b : Word) : OperandShape.Statement (.eq a b) := ⟨rfl, rfl, rfl⟩

theorem OperandShape.ne (a b : Word) : OperandShape.Statement (.ne a b) := ⟨rfl, rfl, rfl⟩

theorem OperandShape.lt (a b : Word) : OperandShape.Statement (.lt a b) := ⟨rfl, rfl, rfl⟩

theorem OperandShape.le (a b : Word) : OperandShape.Statement (.le a b) := ⟨rfl, rfl, rfl⟩

end Sys2Proof.Laws
end

