-- ==== Sys2Proof/Tests/Slice0.lean ====
section
/-! SUPPORT. Tests: the well-formedness smoke test, written encodings, one step per vector of 95_test_vectors, and a
witness for the hypotheses of each statement. Expected results are the spec's. -/

namespace Sys2Proof.Tests

open Sys2Proof.Machine

/-! ## States and words -/

/-- `StackSize = 4`, `HeapSize = 4`, `EXT = false` (95_test_vectors section 0). -/
def coreCfg : Config := { stackSize := 4, heapSize := 4, ext := false, bpReset := none }

/-- The same with `EXT = true`. -/
def extCfg : Config := { stackSize := 4, heapSize := 4, ext := true, bpReset := none }

/-- Reset, `EXT = false`, with a program. -/
def coreAt (prog : List RawWord) : State := State.resetWith coreCfg prog

/-- Reset, `EXT = true`, with a program. -/
def extAt (prog : List RawWord) : State := State.resetWith extCfg prog

/-- The Storable `Int(z)`. -/
def int (z : Int) : Storable := .int (BitVec.ofInt 64 z)

/-- The Storable `Addr(z)`. -/
def addr (z : Int) : Storable := .addr (BitVec.ofInt 64 z)

/-- The word `Reg(r)`. -/
def regW (r : Reg) : Word := .operand (.reg r)

/-- The word `Imm(Int(z))`. -/
def intW (z : Int) : Word := .operand (.imm (.int (BitVec.ofInt 64 z)))

/-- The word `AddrW(PROG, z)`. -/
def progW (z : Int) : Word := .operand (.addr .prog (BitVec.ofInt 64 z))

/-- The word `AddrW(HEAP, z)`. -/
def heapW (z : Int) : Word := .operand (.addr .heap (BitVec.ofInt 64 z))

/-- `s` with register `r` holding `v`. -/
def put (s : State) (r : Reg) (v : Storable) : State := s.setReg r (some v)

/-- What a function of the next state says, `none` if there is no next state. -/
def look {α : Type} (r : Result) (f : State → α) : Option α :=
  match r with
  | .next t => some (f t)
  | .fault _ => none
  | .refused _ => none

/-- The kind, the operand and the register of the fault record. -/
def blame (t : State) : Option (FaultKind × Fin 3 × Option Reg) :=
  t.fault.map fun f => (f.kind, f.operand, f.reg)

/-- SP at 3 with `v` on top. -/
def top (s : State) (v : Storable) : State := (put s .sp (addr 3)).writeStack 3 (some v)

/-! ## Well-formed instructions -/

theorem test_wellFormed_good : (Instr.mov (regW .r1) (intW 7)).wellFormed = true := by decide

theorem test_wellFormed_opcode_at_1 : (Instr.push (.op .nop)).wellFormed = false := by decide

theorem test_wellFormed_invalid_at_1 : (Instr.store .invalid (intW 1)).wellFormed = false := by decide

theorem test_wellFormed_opcode_at_2 : (Instr.add (regW .r1) (.op .add)).wellFormed = false := by decide

theorem test_wellFormed_invalid_at_2 : (Instr.eq (intW 1) .invalid).wellFormed = false := by decide

/-! ## Written encodings (30_encoding R115, R104; 95_test_vectors W1 to W24) -/

theorem test_decode_nop : decodeInstr [0x000000000000000000] = .ok (.nop, []) := rfl

theorem test_decode_mov : decodeInstr [0x000000000000000001, 0x010000000000000005, 0x05FFFFFFFFFFFFFFFE] =
    .ok (.mov (regW .r2) (.operand (.off .bp (-2))), []) := rfl

theorem test_decode_push : decodeInstr [0x000000000000000002, 0x040000000000000001] =
    .ok (.push (.operand (.imm (.bool true))), []) := rfl

theorem test_decode_pop : decodeInstr [0x000000000000000003, 0x010000000000000004] =
    .ok (.pop (regW .r1), []) := rfl

theorem test_decode_alloc : decodeInstr [0x000000000000000004, 0x020000000000000001] =
    .ok (.alloc (intW 1), []) := rfl

theorem test_decode_store :
    decodeInstr [0x000000000000000005, 0x010000000000000004, 0x010000000000000005] =
      .ok (.store (regW .r1) (regW .r2), []) := rfl

theorem test_decode_load :
    decodeInstr [0x000000000000000006, 0x010000000000000005, 0x080000000000000003] =
      .ok (.load (regW .r2) (heapW 3), []) := rfl

theorem test_decode_call : decodeInstr [0x000000000000000007, 0x070000000000000014] =
    .ok (.call (progW 20), []) := rfl

theorem test_decode_ret : decodeInstr [0x000000000000000008] = .ok (.ret, []) := rfl

theorem test_decode_add :
    decodeInstr [0x000000000000000009, 0x010000000000000004, 0x02FFFFFFFFFFFFFFFF] =
      .ok (.add (regW .r1) (intW (-1)), []) := rfl

theorem test_decode_sub :
    decodeInstr [0x00000000000000000A, 0x010000000000000002, 0x020000000000000001] =
      .ok (.sub (regW .sp) (intW 1), []) := rfl

theorem test_decode_jmp : decodeInstr [0x00000000000000000B, 0x070000000000000007] =
    .ok (.jmp (progW 7), []) := rfl

theorem test_decode_je : decodeInstr [0x00000000000000000C, 0x070000000000000007] =
    .ok (.je (progW 7), []) := rfl

theorem test_decode_jne : decodeInstr [0x00000000000000000D, 0x070000000000000006] =
    .ok (.jne (progW 6), []) := rfl

theorem test_decode_eq :
    decodeInstr [0x00000000000000000E, 0x010000000000000007, 0x030000000000000041] =
      .ok (.eq (regW .a1) (.operand (.imm (.char 0x41))), []) := rfl

theorem test_decode_ne :
    decodeInstr [0x00000000000000000F, 0x010000000000000009, 0x040000000000000000] =
      .ok (.ne (regW .zf) (.operand (.imm (.bool false))), []) := rfl

theorem test_decode_lt :
    decodeInstr [0x000000000000000010, 0x010000000000000005, 0x020000000000000003] =
      .ok (.lt (regW .r2) (intW 3), []) := rfl

theorem test_decode_le :
    decodeInstr [0x000000000000000011, 0x060000000000000000, 0x010000000000000001] =
      .ok (.le (.operand (.off .sp 0)) (regW .bp), []) := rfl

/-- W3, W4, W7, W14, W17, W23, W24: the reserved encodings. -/
theorem test_decode_reserved :
    decodeWord 0x000000000000000012 = .invalid ∧ decodeWord 0x00FFFFFFFFFFFFFFFF = .invalid ∧
    decodeWord 0x01000000000000000A = .invalid ∧ decodeWord 0x030000000100000000 = .invalid ∧
    decodeWord 0x040000000000000002 = .invalid ∧ decodeWord 0x090000000000000000 = .invalid ∧
    decodeWord 0xFF0000000000000000 = .invalid := by decide

/-- W10, W11, W13, W22: the ends of the payloads. -/
theorem test_decode_ends :
    decodeWord 0x028000000000000000 = intW (-2 ^ 63) ∧ decodeWord 0x027FFFFFFFFFFFFFFF = intW (2 ^ 63 - 1) ∧
    decodeWord 0x0300000000FFFFFFFF = .operand (.imm (.char 0xFFFFFFFF)) ∧
    decodeWord 0x08FFFFFFFFFFFFFFFF = heapW (-1) := ⟨rfl, rfl, rfl, rfl⟩

/-- 30_encoding R112: an operand word first, and a truncated instruction, are rejected by name. -/
theorem test_decode_rejects :
    decodeInstr [] = .error .noWord ∧ decodeInstr [0x010000000000000004] = .error .notAnOpcode ∧
    decodeInstr [0x000000000000000001, 0x010000000000000004] = .error (.truncated .mov) := ⟨rfl, rfl, rfl⟩

/-- V1 to V7 (10_state R57). -/
theorem test_slotBits :
    slotBits none = 0 ∧ slotBits (some (int (-1))) = 0x4FFFFFFFFFFFFFFFF ∧
    slotBits (some (.char 0x41)) = 0x50000000000000041 ∧ slotBits (some (.bool true)) = 0x60000000000000001 ∧
    slotBits (some (addr 4)) = 0x70000000000000004 := by decide

/-! ## One step per instruction (95_test_vectors section 2) -/

/-- Z1, Z2. -/
theorem test_reset : (coreAt [0]).status = .running ∧ (coreAt []).status = .halted ∧
    State.reset.reg .sp = some (addr 4) := by decide

/-- E2. -/
theorem test_nop : look (step (coreAt [0])) (fun t => (t.reg .pc, t.status)) =
    some (some (addr 1), .halted) := by decide

/-- E13, second step. -/
theorem test_negative_pc : look (step (put (coreAt [0]) .pc (addr (-2)))) blame =
    some (some (.unsupportedWord, 0, none)) := by decide

/-- E8. -/
theorem test_opcode_as_operand : look (step (coreAt [2, 0])) blame =
    some (some (.unsupportedWord, 1, none)) := by decide

/-- E12: the dispatch check comes before the truncation test. -/
theorem test_disabled : look (step (coreAt [14])) blame = some (some (.unimplementedOpcode, 0, none)) := by decide

/-- M24. -/
theorem test_mov_pc : look (exec (.mov (regW .pc) (intW 5)) (coreAt [])) (fun t => t.reg .pc) =
    some (some (addr 8)) := by decide

/-- M8. -/
theorem test_mov_bool_to_sp : look (exec (.mov (regW .sp) (.operand (.imm (.bool true)))) (coreAt [])) blame =
    some (some (.typeMismatch, 1, some .sp)) := by decide

/-- S6. -/
theorem test_push_sp : look (exec (.push (regW .sp)) (coreAt [])) (fun t => (t.reg .sp, memRead t.stack 3)) =
    some (some (addr 3), some (addr 4)) := by decide

/-- S9. -/
theorem test_push_full : look (exec (.push (intW 1)) (put (coreAt []) .sp (addr 0)))
    (fun t => (t.reg .sp, blame t)) = some (some (addr (-1)), some (.stackOverflow, 0, none)) := by decide

/-- PO5. -/
theorem test_pop_sp : look (exec (.pop (regW .sp)) (top (coreAt []) (int 1)))
    (fun t => (t.reg .sp, memRead t.stack 3)) = some (some (addr 1), none) := by decide

/-- PO2. -/
theorem test_pop_empty : look (exec (.pop (regW .r1)) (coreAt [])) blame =
    some (some (.stackUnderflow, 0, none)) := by decide

/-- H6. -/
theorem test_alloc_to_the_end : look (exec (.alloc (intW 1)) (put (coreAt []) .hp (addr 3)))
    (fun t => (t.reg .hp, memRead t.stack 3)) = some (some (addr 4), some (addr 3)) := by decide

/-- H12. -/
theorem test_alloc_stack_full : look (exec (.alloc (intW 1)) (put (coreAt []) .sp (addr 0)))
    (fun t => (t.reg .hp, t.reg .sp)) = some (some (addr 1), some (addr (-1))) := by decide

/-- T2. -/
theorem test_store_last_slot : look (exec (.store (regW .r1) (intW 7)) (put (coreAt []) .r1 (addr 3)))
    (fun t => memRead t.heap 3) = some (some (int 7)) := by decide

/-- T20: operand 1 faults before operand 2 is resolved. -/
theorem test_store_order : look (exec (.store (regW .r1) (regW .r2)) (put (coreAt []) .r1 (addr 9))) blame =
    some (some (.heapOutOfBounds, 1, none)) := by decide

/-- L10. -/
theorem test_load_over_address :
    look (exec (.load (regW .r1) (regW .r1)) ((put (coreAt []) .r1 (addr 1)).writeHeap 1 (some (int 8))))
      (fun t => t.reg .r1) = some (some (int 8)) := by decide

/-- L4. -/
theorem test_load_int_address : look (exec (.load (regW .r3) (regW .r1)) (put (coreAt []) .r1 (int 0))) blame =
    some (some (.typeMismatch, 2, some .r1)) := by decide

/-- AD6. -/
theorem test_add_wraps : look (exec (.add (regW .r1) (intW 1)) (put (coreAt []) .r1 (int (2 ^ 63 - 1))))
    (fun t => (t.reg .r1, t.reg .zf)) = some (some (int (-2 ^ 63)), some (.bool false)) := by decide

/-- AD11: the immediate's type is tested before the destination is read. -/
theorem test_add_char : look (exec (.add (regW .r1) (.operand (.imm (.char 0x61)))) (coreAt [])) blame =
    some (some (.typeMismatch, 2, none)) := by decide

/-- SB8. -/
theorem test_sub_direction : look (exec (.sub (regW .r1) (intW (-2))) (put (coreAt []) .r1 (int 5)))
    (fun t => t.reg .r1) = some (some (int 7)) := by decide

/-- SB7. -/
theorem test_sub_keeps_address : look (exec (.sub (regW .r1) (intW 3)) (put (coreAt []) .r1 (addr 3)))
    (fun t => (t.reg .r1, t.reg .zf)) = some (some (addr 0), some (.bool true)) := by decide

/-- Q2. -/
theorem test_eq_variants :
    look (exec (.eq (regW .r1) (regW .r2)) (put (put (extAt []) .r1 (int 0)) .r2 (addr 0)))
      (fun t => (t.reg .zf, t.reg .pc)) = some (some (.bool false), some (addr 3)) := by decide

/-- NE1. -/
theorem test_ne : look (exec (.ne (regW .r1) (intW 42)) (put (extAt []) .r1 (int 42))) (fun t => t.reg .zf) =
    some (some (.bool false)) := by decide

/-- LT3. -/
theorem test_lt_signed : look (exec (.lt (regW .r1) (intW 0)) (put (extAt []) .r1 (int (-1))))
    (fun t => t.reg .zf) = some (some (.bool true)) := by decide

/-- LT4. -/
theorem test_lt_variants : look (exec (.lt (regW .r1) (intW 0)) (put (extAt []) .r1 (addr 0))) blame =
    some (some (.typeMismatch, 2, none)) := by decide

/-- LE1. -/
theorem test_le_equal : look (exec (.le (regW .r1) (intW 10)) (put (extAt []) .r1 (int 10)))
    (fun t => t.reg .zf) = some (some (.bool true)) := by decide

/-- 46_control_transfer R230: a jump to `ProgLen` is legal, one beyond is not. -/
theorem test_jmp_bounds : look (exec (.jmp (progW 2)) (extAt [0, 0])) (fun t => (t.reg .pc, t.status)) =
      some (some (addr 2), .halted) ∧
    look (exec (.jmp (progW 3)) (extAt [0, 0])) blame = some (some (.unsupportedOperand, 1, none)) := by decide

/-- 46_control_transfer R232: taken, and not taken. -/
theorem test_je : look (exec (.je (progW 0)) (put (put (extAt [0]) .pc (addr 6)) .zf (.bool true)))
      (fun t => t.reg .pc) = some (some (addr 0)) ∧
    look (exec (.je (progW 0)) (put (put (extAt [0]) .pc (addr 6)) .zf (.bool false)))
      (fun t => t.reg .pc) = some (some (addr 8)) := by decide

/-- 46_control_transfer R233: ZF `empty`, and taken. -/
theorem test_jne : look (exec (.jne (progW 0)) (extAt [0])) blame = some (some (.nilRegister, 0, some .zf)) ∧
    look (exec (.jne (progW 0)) (put (put (extAt [0]) .pc (addr 6)) .zf (.bool false)))
      (fun t => t.reg .pc) = some (some (addr 0)) := by decide

/-- 46_control_transfer R234, at `p = 3`. -/
theorem test_call : look (exec (.call (progW 1)) (put (extAt [0, 0]) .pc (addr 3)))
    (fun t => (t.reg .pc, t.reg .sp, memRead t.stack 3)) =
      some (some (addr 1), some (addr 3), some (addr 5)) := by decide

/-- 46_control_transfer R235: no advance. -/
theorem test_ret : look (exec .ret (top (extAt []) (addr 5)))
    (fun t => (t.reg .pc, t.reg .sp, memRead t.stack 3)) = some (some (addr 5), some (addr 4), none) := by decide

/-- The placed words are the next step's instruction; they may overwrite a longer program. -/
theorem test_withFetchWord : look (step (State.reset.withFetchWord 72 0)) (fun t => t.reg .pc) =
    some (some (addr 1)) := by decide

/-! ## Witnesses: the hypotheses of each statement hold together, clause by clause -/

theorem witness_ResetLeavesTheStatedValues :
    coreCfg.valid = true ∧
    (Config.mk 1 0 false (some (addr 4))).valid = true ∧ (Config.mk (2 ^ 63 - 1) (2 ^ 63 - 1) true none).valid = true := by
  decide

theorem witness_ResetMeetsTheInvariant : extCfg.valid = true ∧ [(0 : RawWord)].length ≤ 2 ^ 63 - 4 := by decide

theorem witness_RunStateIsAFunctionOfTheState :
    (coreAt [0]).atPc 0 ∧
    ((put (coreAt [0]) .pc (addr (-1))).atPc (-1) ∧ (put (coreAt [0]) .pc (addr (-1))).fault = none ∧
      (-1 : Word64).toInt < 0) := ⟨rfl, rfl, rfl, by decide⟩

theorem witness_TerminalStatesStay :
    (coreAt []).status ≠ .running ∧
    (((coreAt [0]).withFault .emptySlot 0 none 0 none).status ≠ .running ∧
      ((coreAt [0]).withFault .emptySlot 0 none 0 none).fault ≠ none) := by decide

theorem witness_StatusOutputsReportTheRecord :
    ((coreAt []).withFault .emptySlot 0 (some .load) 2 none).fault = some ⟨.emptySlot, 0, some .load, 2, none⟩ ∧
    (coreAt []).fault = none ∧ FaultKind.emptySlot.code = FaultKind.emptySlot.code := ⟨rfl, rfl, rfl⟩

theorem witness_WordDecodingIsInverseToEncoding :
    Word.op .le ≠ .invalid ∧ decodeWord 0x040000000000000001 ≠ .invalid := by decide

theorem witness_DecodeOfEncodeIsTheInstruction : (Instr.store (heapW (-1)) (intW (2 ^ 63 - 1))).wellFormed = true := by
  decide

theorem witness_EncodeOfDecodeIsTheWords :
    decodeInstr [0x000000000000000002, 0x040000000000000001, 5] =
      .ok (.push (.operand (.imm (.bool true))), [5]) ∧
    (Instr.push (.operand (.imm (.bool true)))).wellFormed = true := ⟨rfl, rfl⟩

theorem witness_StepRunsTheDecodedInstruction :
    (coreAt [2, 0x020000000000000001]).fault = none ∧ (coreAt [2, 0x020000000000000001]).atPc 0 ∧
    0 ≤ (0 : Word64).toInt ∧
    decodeInstr ((coreAt [2, 0x020000000000000001]).prog.drop (0 : Word64).toInt.toNat) =
      .ok (.push (intW 1), []) := ⟨rfl, rfl, by decide, rfl⟩

theorem witness_PlacedWordsRunNext : decodeTableWord 72 8 = some .ret := rfl

theorem witness_FetchFaultsOnANonOpcode :
    ((put (coreAt [0]) .pc (addr (-1))).fault = none ∧ (put (coreAt [0]) .pc (addr (-1))).atPc (-1) ∧
      (-1 : Word64).toInt < (coreAt [0]).progLen ∧ (-1 : Word64).toInt < 0) ∧
    ((coreAt [18]).fault = none ∧ (coreAt [18]).atPc 0 ∧ (0 : Word64).toInt < (coreAt [18]).progLen ∧
      ∀ o, (coreAt [18]).progWord (0 : Word64).toInt.toNat ≠ .op o) :=
  ⟨⟨rfl, rfl, by decide, by decide⟩, rfl, rfl, by decide, by intro o; cases o <;> decide⟩

theorem witness_DisabledOpcodeFaultsAtDispatch :
    (coreAt [14]).fault = none ∧ (coreAt [14]).atPc 0 ∧ 0 ≤ (0 : Word64).toInt ∧
    (0 : Word64).toInt < (coreAt [14]).progLen ∧ (coreAt [14]).progWord (0 : Word64).toInt.toNat = .op .eq ∧
    isExtOpcode .eq = true ∧ (coreAt [14]).cfg.ext = false :=
  ⟨rfl, rfl, by decide, by decide, rfl, rfl, rfl⟩

theorem witness_OperandWordFaults :
    (coreAt [2]).fault = none ∧ (coreAt [2]).atPc 0 ∧ 0 ≤ (0 : Word64).toInt ∧
    (0 : Word64).toInt < (coreAt [2]).progLen ∧ (coreAt [2]).progWord (0 : Word64).toInt.toNat = .op .push ∧
    (coreAt [2]).enabled .push ∧ ((coreAt [2]).progLen : Int) ≤ (0 : Word64).toInt + Opcode.push.arity :=
  ⟨rfl, rfl, by decide, by decide, rfl, nofun, by decide⟩

theorem witness_OperandWordFaults_first :
    (coreAt [2, 0]).fault = none ∧ (coreAt [2, 0]).atPc 0 ∧ 0 ≤ (0 : Word64).toInt ∧
    (0 : Word64).toInt < (coreAt [2, 0]).progLen ∧ (coreAt [2, 0]).progWord (0 : Word64).toInt.toNat = .op .push ∧
    (coreAt [2, 0]).enabled .push ∧ (0 : Word64).toInt + Opcode.push.arity < (coreAt [2, 0]).progLen ∧
    1 ≤ Opcode.push.arity ∧ ((coreAt [2, 0]).progWord ((0 : Word64).toInt.toNat + 1)).isOperand = false :=
  ⟨rfl, rfl, by decide, by decide, rfl, nofun, by decide, by decide, rfl⟩

theorem witness_OperandWordFaults_second :
    (coreAt [1, 0x010000000000000004, 18]).fault = none ∧ (coreAt [1, 0x010000000000000004, 18]).atPc 0 ∧
    0 ≤ (0 : Word64).toInt ∧ (0 : Word64).toInt < (coreAt [1, 0x010000000000000004, 18]).progLen ∧
    (coreAt [1, 0x010000000000000004, 18]).progWord (0 : Word64).toInt.toNat = .op .mov ∧
    (coreAt [1, 0x010000000000000004, 18]).enabled .mov ∧
    (0 : Word64).toInt + Opcode.mov.arity < (coreAt [1, 0x010000000000000004, 18]).progLen ∧
    Opcode.mov.arity = 2 ∧
    ((coreAt [1, 0x010000000000000004, 18]).progWord ((0 : Word64).toInt.toNat + 1)).isOperand = true ∧
    ((coreAt [1, 0x010000000000000004, 18]).progWord ((0 : Word64).toInt.toNat + 2)).isOperand = false :=
  ⟨rfl, rfl, by decide, by decide, rfl, nofun, by decide, rfl, rfl, rfl⟩

theorem witness_DisabledInstructionsOnlyFault :
    (coreAt []).atPc 0 ∧ isExtOpcode (Instr.jmp .invalid).opcode = true ∧ (coreAt []).cfg.ext = false :=
  ⟨rfl, rfl, rfl⟩

theorem witness_ValueOperandYields :
    (coreAt []).reg .sp = some (addr 4) ∧ (coreAt []).reg .r1 = none ∧ (coreAt []).reg (baseReg .bp) = none ∧
    ((coreAt []).reg (baseReg .sp) = some (.addr 4) ∧
      (4 : Word64).toInt + (-5 : Word64).toInt < 0 ∧
      ((coreAt []).cfg.stackSize : Int) ≤ (4 : Word64).toInt + (0 : Word64).toInt) := by decide

theorem witness_ValueOperandYields_slot :
    ((coreAt []).reg (baseReg .sp) = some (.addr 4) ∧ (4 : Word64).toInt + (-4 : Word64).toInt = (0 : Nat) ∧
      0 < (coreAt []).cfg.stackSize ∧ memRead (coreAt []).stack 0 = none) ∧
    ((top (coreAt []) (int 7)).reg (baseReg .sp) = some (.addr 3) ∧
      (3 : Word64).toInt + (0 : Word64).toInt = (3 : Nat) ∧ 3 < (top (coreAt []) (int 7)).cfg.stackSize ∧
      memRead (top (coreAt []) (int 7)).stack 3 = some (int 7)) := by decide

theorem witness_UnresolvedValueOperandFaults :
    (extAt []).atPc 0 ∧
    (value (extAt []) (.reg .r1) 1 = .error (.raise .nilRegister 1 (some .r1) (extAt [])) ∧
      (extAt []).cfg.ext = true ∧ isValue (.reg .r2) = true) ∧
    (value (extAt []) (.off .sp 0) 2 = .error (.raise .stackOutOfBounds 2 none (extAt [])) ∧
      Reg.sp ≠ .zf ∧ heapAddr (extAt []) (.addr .heap 3) 1 = .ok 3 ∧
      value (extAt []) (.reg .sp) 1 = .ok (addr 4)) :=
  ⟨rfl, ⟨rfl, rfl, rfl⟩, rfl, by decide, rfl, rfl⟩

theorem witness_HeapAddressOperandYields :
    (coreAt []).reg .r1 = none ∧
    ((put (coreAt []) .r1 (int 0)).reg .r1 = some (int 0) ∧ ∀ a, int 0 ≠ .addr a) ∧
    (Operand.addr .heap 4 = .addr .heap 4 ∧ ((coreAt []).cfg.heapSize : Int) ≤ (4 : Word64).toInt) ∧
    (Operand.addr .heap (-1) = .addr .heap (-1) ∧ (-1 : Word64).toInt < 0) ∧
    ((∃ r, Operand.reg .hp = .reg r ∧ (coreAt []).reg r = some (.addr 0)) ∧ (0 : Word64).toInt = (0 : Nat) ∧
      0 < (coreAt []).cfg.heapSize) :=
  ⟨rfl, ⟨rfl, nofun⟩, ⟨rfl, by decide⟩, ⟨rfl, by decide⟩, ⟨_, rfl, rfl⟩, by decide, by decide⟩

theorem witness_UnresolvedHeapAddressFaults :
    (coreAt []).atPc 0 ∧
    (isValue (.reg .r2) = true ∧ heapAddr (coreAt []) (.addr .heap 4) 1 =
      .error (.raise .heapOutOfBounds 1 none (coreAt []))) ∧
    (Reg.r3 ≠ .zf ∧ heapAddr (coreAt []) (.addr .prog 0) 2 =
      .error (.raise .unsupportedOperand 2 none (coreAt []))) ∧
    (isHeapAddr (.reg .r1) = true ∧ isValue (.addr .prog 0) = false) :=
  ⟨rfl, ⟨rfl, rfl⟩, ⟨by decide, rfl⟩, rfl, rfl⟩

theorem witness_BadDestinationFaults :
    (coreAt []).atPc 0 ∧ (∀ r, Operand.reg .zf = .reg r → r = .zf) ∧
    (∀ r, Operand.imm (.int 5) = .reg r → r = .zf) :=
  ⟨rfl, by intro r h; cases h; rfl, nofun⟩

theorem witness_TargetOperandYields :
    (0 ≤ (1 : Word64).toInt ∧ (1 : Word64).toInt ≤ (extAt [0]).progLen) ∧
    (∀ t : Word64, Operand.addr .prog 2 = .addr .prog t → t.toInt < 0 ∨ ((extAt [0]).progLen : Int) < t.toInt) ∧
    (∀ t : Word64, Operand.addr .heap 0 = .addr .prog t → t.toInt < 0 ∨ ((extAt [0]).progLen : Int) < t.toInt) ∧
    ((extAt [0]).fault = none ∧ (1 : Word64).toInt = (extAt [0]).progLen) ∧
    (0 ≤ (0 : Word64).toInt ∧ (0 : Word64).toInt < (extAt [18]).progLen ∧
      ∀ o, (extAt [18]).progWord (0 : Word64).toInt.toNat ≠ .op o) :=
  ⟨by decide, by intro t h; cases h; decide, nofun, ⟨rfl, by decide⟩, by decide, by decide,
    by intro o; cases o <;> decide⟩

theorem witness_NopOnlyAdvances : (coreAt []).atPc 0 := rfl

theorem witness_MovResultTable :
    (coreAt []).atPc 0 ∧
    (isSpecial .a2 = false ∧ Reg.a2 ≠ .zf ∧ value (coreAt []) (.imm (.char 0x41)) 2 = .ok (.char 0x41)) ∧
    (isSpecial .pc = true ∧ value (coreAt []) (.imm (.int 5)) 2 = .ok (.int 5)) ∧
    (isSpecial .bp = true ∧ value (coreAt []) (.reg .sp) 2 = .ok (.addr 4)) ∧
    (isSpecial .sp = true ∧ value (coreAt []) (.imm (.bool true)) 2 = .ok (.bool true)) :=
  ⟨rfl, ⟨rfl, by decide, rfl⟩, ⟨rfl, rfl⟩, ⟨rfl, rfl⟩, rfl, rfl⟩

theorem witness_PushOutcomes :
    (coreAt []).atPc 0 ∧ (coreAt []).cfg.valid = true ∧ value (coreAt []) (.imm (.int 42)) 1 = .ok (int 42) ∧
    ((coreAt []).atSp 4 ∧ 1 ≤ (4 : Word64).toInt ∧ (4 : Word64).toInt ≤ (coreAt []).cfg.stackSize) ∧
    ((put (coreAt []) .sp (addr 1)).atSp 1 ∧ 1 ≤ (1 : Word64).toInt) ∧
    ((put (coreAt []) .sp (addr 0)).atSp 0 ∧ (0 : Word64).toInt ≤ 0 ∧ -2 ^ 63 < (0 : Word64).toInt) ∧
    ((put (coreAt []) .sp (addr 5)).atSp 5 ∧ ((coreAt []).cfg.stackSize : Int) < (5 : Word64).toInt) ∧
    ((put (coreAt []) .sp (addr (-2 ^ 63))).atSp (BitVec.ofInt 64 (-2 ^ 63)) ∧
      (BitVec.ofInt 64 (-2 ^ 63)).toInt = -2 ^ 63) :=
  ⟨rfl, by decide, rfl, ⟨rfl, by decide⟩, ⟨rfl, by decide⟩, ⟨rfl, by decide⟩, ⟨rfl, by decide⟩, rfl,
    by decide⟩

theorem witness_PopResults :
    (top (coreAt []) (addr 2)).atPc 0 ∧ (top (coreAt []) (addr 2)).atSp 3 ∧ (3 : Word64).toInt = (3 : Nat) ∧
    3 < (top (coreAt []) (addr 2)).cfg.stackSize ∧ (top (coreAt []) (addr 2)).cfg.valid = true ∧
    memRead (top (coreAt []) (addr 2)).stack 3 = some (.addr 2) ∧
    (Reg.r1 ≠ .zf ∧ isSpecial .r1 = false) ∧ (Reg.pc ≠ .zf ∧ isSpecial .pc = true) ∧
    memRead (top (coreAt []) (.bool true)).stack 3 = some (.bool true) :=
  ⟨rfl, rfl, by decide⟩

theorem witness_PopAndRetStackFaults :
    (extAt []).atPc 0 ∧ Reg.r1 ≠ .zf ∧ (extAt []).cfg.ext = true ∧
    ((extAt []).atSp 4 ∧ ((extAt []).cfg.stackSize : Int) ≤ (4 : Word64).toInt) ∧
    ((put (extAt []) .sp (addr (-1))).atSp (-1) ∧ (-1 : Word64).toInt < 0) ∧
    ((put (extAt []) .sp (addr 0)).atSp 0 ∧ (0 : Word64).toInt = (0 : Nat) ∧ 0 < (extAt []).cfg.stackSize ∧
      memRead (extAt []).stack 0 = none) :=
  ⟨rfl, by decide, rfl, ⟨rfl, by decide⟩, ⟨rfl, by decide⟩, rfl, by decide⟩

theorem witness_AllocResult :
    (coreAt []).atPc 0 ∧ (coreAt []).atSp 4 ∧ (coreAt []).reg .hp = some (.addr 0) ∧
    (coreAt []).cfg.valid = true ∧ value (coreAt []) (.imm (.int 4)) 1 = .ok (.int 4) ∧
    0 ≤ (4 : Word64).toInt ∧ 0 ≤ (0 : Word64).toInt ∧
    (0 : Word64).toInt + (4 : Word64).toInt ≤ (coreAt []).cfg.heapSize ∧ 1 ≤ (4 : Word64).toInt ∧
    (4 : Word64).toInt ≤ (coreAt []).cfg.stackSize :=
  ⟨rfl, rfl, rfl, rfl, rfl, by decide⟩

theorem witness_AllocFaults :
    (coreAt []).atPc 0 ∧ (coreAt []).cfg.valid = true ∧ (coreAt []).reg .hp = some (.addr 0) ∧
    ((coreAt []).atSp 4 ∧ value (coreAt []) (.imm (.bool true)) 1 = .ok (.bool true) ∧
      ∀ k, Storable.bool true ≠ .int k) ∧
    (value (coreAt []) (.imm (.int 5)) 1 = .ok (.int 5) ∧
      ((coreAt []).cfg.heapSize : Int) < (0 : Word64).toInt + (5 : Word64).toInt) ∧
    (value (coreAt []) (.imm (.int (-1))) 1 = .ok (.int (-1)) ∧ (-1 : Word64).toInt < 0) ∧
    ((put (coreAt []) .sp (addr 0)).atSp 0 ∧ 0 ≤ (0 : Word64).toInt ∧
      (0 : Word64).toInt + (0 : Word64).toInt ≤ (coreAt []).cfg.heapSize ∧ (0 : Word64).toInt ≤ 0 ∧
      -2 ^ 63 < (0 : Word64).toInt) ∧
    ((put (coreAt []) .sp (addr 5)).atSp 5 ∧ ((coreAt []).cfg.stackSize : Int) < (5 : Word64).toInt) :=
  ⟨rfl, rfl, rfl, ⟨rfl, rfl, nofun⟩, ⟨rfl, by decide⟩, ⟨rfl, by decide⟩, ⟨rfl, by decide⟩, rfl, by decide⟩

theorem witness_StoreResult :
    (coreAt []).atPc 0 ∧ heapAddr (coreAt []) (.addr .heap 3) 1 = .ok 3 ∧
    value (coreAt []) (.reg .sp) 2 = .ok (addr 4) ∧ Memory.wf (coreAt []).heap = true := ⟨rfl, rfl, rfl, rfl⟩

theorem witness_LoadResults :
    (coreAt []).atPc 0 ∧ Reg.r3 ≠ .zf ∧ heapAddr (coreAt []) (.addr .heap 3) 2 = .ok 3 ∧
    memRead (coreAt []).heap 3 = none ∧
    (memRead ((coreAt []).writeHeap 3 (some (.int 8))).heap 3 = some (.int 8) ∧ isSpecial .r3 = false ∧
      isSpecial .sp = true ∧ heapAddr ((coreAt []).writeHeap 3 (some (.int 8))) (.addr .heap 3) 2 = .ok 3) ∧
    (memRead ((coreAt []).writeHeap 3 (some (.bool true))).heap 3 = some (.bool true) ∧
      heapAddr ((coreAt []).writeHeap 3 (some (.bool true))) (.addr .heap 3) 2 = .ok 3) :=
  ⟨rfl, by decide, rfl, rfl, ⟨rfl, rfl, rfl, rfl⟩, rfl, rfl⟩

theorem witness_AddResult :
    (put (coreAt []) .r1 (int 41)).atPc 0 ∧ Reg.r1 ≠ .zf ∧ (put (coreAt []) .r1 (int 41)).reg .r1 = some (.int 41) ∧
    ((coreAt []).atPc 0 ∧ Reg.pc ≠ .zf ∧ (coreAt []).reg .pc = some (.addr 0)) :=
  ⟨rfl, by decide, rfl, rfl, by decide, rfl⟩

theorem witness_SubResult :
    (put (coreAt []) .r2 (int 1)).atPc 0 ∧ Reg.r2 ≠ .zf ∧ (put (coreAt []) .r2 (int 1)).reg .r2 = some (.int 1) ∧
    ((coreAt []).atPc 0 ∧ Reg.sp ≠ .zf ∧ (coreAt []).reg .sp = some (.addr 4)) :=
  ⟨rfl, by decide, rfl, rfl, by decide, rfl⟩

theorem witness_ArithmeticFaults :
    (coreAt []).atPc 0 ∧ Reg.r1 ≠ .zf ∧ (∀ v, Operand.reg .r2 ≠ .imm v) ∧
    (∃ c, Operand.imm (.char 0x61) = .imm (.char c)) ∧
    (Operand.imm (.int 1) = .imm (.int 1) ∧ (coreAt []).reg .r1 = none) ∧
    ((put (coreAt []) .r1 (.bool true)).reg .r1 = some (.bool true) ∧
      (put (coreAt []) .r1 (.bool true)).atPc 0) :=
  ⟨rfl, by decide, nofun, ⟨_, rfl⟩, ⟨rfl, rfl⟩, rfl, rfl⟩

theorem witness_ZeroFlagMeansZeroResult :
    ((coreAt []).atPc 0 ∧ (coreAt []).fault = none ∧
      ∃ t, exec (.add (regW .sp) (intW (-4))) (coreAt []) = .next t ∧ t.fault = none) ∧
    (isExtOpcode (Instr.push (intW 1)).opcode = false ∧ (Instr.push (intW 1)).opcode ≠ .add ∧
      (Instr.push (intW 1)).opcode ≠ .sub ∧ ∃ t, exec (.push (intW 1)) (coreAt []) = .next t) :=
  ⟨⟨rfl, rfl, _, rfl, rfl⟩, rfl, by decide, by decide, _, rfl⟩

theorem witness_CompareOutcomeTable :
    (extAt []).atPc 0 ∧ (extAt []).cfg.ext = true ∧
    (value (extAt []) (.imm (.int 3)) 1 = .ok (.int 3) ∧ value (extAt []) (.imm (.int 3)) 2 = .ok (.int 3)) ∧
    (value (extAt []) (.reg .hp) 1 = .ok (.addr 0) ∧ value (extAt []) (.reg .sp) 2 = .ok (.addr 4)) ∧
    value (extAt []) (.imm (.char 0x61)) 1 = .ok (.char 0x61) ∧
    (value (extAt []) (.imm (.bool true)) 2 = .ok (.bool true) ∧ (∀ n, Storable.bool true ≠ .int n) ∧
      ∀ n, Storable.int 3 ≠ .addr n) :=
  ⟨rfl, rfl, ⟨rfl, rfl⟩, ⟨rfl, rfl⟩, rfl, rfl, nofun, nofun⟩

theorem witness_CompareShapeFaults :
    (extAt []).atPc 0 ∧ (extAt []).cfg.ext = true ∧ isValue (.addr .heap 0) = false ∧
    (isValue (.imm (.int 1)) = true ∧ isValue (.addr .prog 0) = false) := ⟨rfl, rfl, rfl, rfl, rfl⟩

theorem witness_JmpResult :
    (extAt [0]).atPc 0 ∧ (extAt [0]).cfg.ext = true ∧ 0 ≤ (1 : Word64).toInt ∧
    (1 : Word64).toInt ≤ (extAt [0]).progLen := ⟨rfl, rfl, by decide⟩

theorem witness_ConditionalJumpResults :
    (extAt [0]).atPc 0 ∧ (extAt [0]).cfg.ext = true ∧ 0 ≤ (0 : Word64).toInt ∧
    (0 : Word64).toInt ≤ (extAt [0]).progLen ∧ (extAt [0]).reg .zf = none ∧
    ((put (extAt [0]) .zf (.bool true)).reg .zf = some (.bool true) ∧
      (put (extAt [0]) .zf (.bool true)).atPc 0) := ⟨rfl, rfl, by decide, by decide, rfl, rfl, rfl⟩

theorem witness_BadTargetFaults :
    (extAt [0]).atPc 0 ∧ (extAt [0]).cfg.ext = true ∧
    (∀ t : Word64, Operand.addr .prog 2 = .addr .prog t → t.toInt < 0 ∨ ((extAt [0]).progLen : Int) < t.toInt) ∧
    (∀ t : Word64, Operand.addr .prog (-1) = .addr .prog t → t.toInt < 0 ∨ ((extAt [0]).progLen : Int) < t.toInt) ∧
    (∀ t : Word64, Operand.reg .r1 = .addr .prog t → t.toInt < 0 ∨ ((extAt [0]).progLen : Int) < t.toInt) :=
  ⟨rfl, rfl, by intro t h; cases h; decide, by intro t h; cases h; decide, nofun⟩

theorem witness_CallOutcomes :
    (extAt []).atPc 0 ∧ (extAt []).cfg.ext = true ∧ (extAt []).cfg.valid = true ∧ 0 ≤ (0 : Word64).toInt ∧
    (0 : Word64).toInt ≤ (extAt []).progLen ∧
    ((extAt []).atSp 4 ∧ 1 ≤ (4 : Word64).toInt ∧ (4 : Word64).toInt ≤ (extAt []).cfg.stackSize) ∧
    ((put (extAt []) .sp (addr 0)).atSp 0 ∧ (0 : Word64).toInt ≤ 0 ∧ -2 ^ 63 < (0 : Word64).toInt) ∧
    ((put (extAt []) .sp (addr 5)).atSp 5 ∧ ((extAt []).cfg.stackSize : Int) < (5 : Word64).toInt) :=
  ⟨rfl, rfl, rfl, by decide, by decide, ⟨rfl, by decide⟩, ⟨rfl, by decide⟩, rfl, by decide⟩

theorem witness_RetResults :
    (top (extAt []) (addr 5)).atPc 0 ∧ (top (extAt []) (addr 5)).atSp 3 ∧
    (top (extAt []) (addr 5)).cfg.ext = true ∧ (3 : Word64).toInt = (3 : Nat) ∧
    3 < (top (extAt []) (addr 5)).cfg.stackSize ∧
    memRead (top (extAt []) (addr 5)).stack 3 = some (.addr 5) ∧
    (memRead (top (extAt []) (.bool true)).stack 3 = some (.bool true) ∧
      (top (extAt []) (.bool true)).atSp 3) := ⟨rfl, rfl, rfl, by decide, by decide, rfl, rfl, rfl⟩

theorem witness_HostConstantsStay : ∃ t, step (coreAt [0]) = .next t := ⟨_, rfl⟩

theorem witness_RegisterFrame :
    (∃ t, exec (.push (intW 1)) (coreAt []) = .next t) ∧ Reg.hp ≠ .pc ∧
    isDestination (.push (intW 1)) .hp = false ∧ implicitlyWrites (Instr.push (intW 1)).opcode .hp = false :=
  ⟨⟨_, rfl⟩, by decide, rfl, rfl⟩

theorem witness_StackFrame :
    ((∃ t, exec (.push (intW 1)) (coreAt []) = .next t) ∧
      (Instr.push (intW 1)).opcode ∈ [Opcode.push, .alloc, .call] ∧
      ∀ n : Word64, ((coreAt []).reg .sp).bind numBits = some n →
        ((2 : Nat) : Int) ≠ (wrapW (n.toInt - 1)).toInt) ∧
    ((∃ t, exec (.pop (regW .r1)) (top (coreAt []) (int 1)) = .next t) ∧
      (Instr.pop (regW .r1)).opcode ∈ [Opcode.pop, .ret] ∧
      ∀ n : Word64, ((top (coreAt []) (int 1)).reg .sp).bind numBits = some n → ((2 : Nat) : Int) ≠ n.toInt) ∧
    ((∃ t, exec .nop (coreAt []) = .next t) ∧
      Instr.nop.opcode ∉ [Opcode.push, .alloc, .call, .pop, .ret]) :=
  ⟨⟨⟨_, rfl⟩, by decide, by intro n h; cases h; decide⟩, ⟨⟨_, rfl⟩, by decide, by intro n h; cases h; decide⟩,
    ⟨_, rfl⟩, by decide⟩

theorem witness_HeapFrame :
    ((∃ t, exec (.alloc (intW 1)) (coreAt []) = .next t) ∧ (Instr.alloc (intW 1)).opcode ≠ .store) ∧
    ((∃ t, exec (.store (heapW 0) (intW 1)) (coreAt []) = .next t) ∧
      ∀ x, heapW 0 = .operand x → heapAddr (coreAt []) x 1 ≠ .ok 1) :=
  ⟨⟨⟨_, rfl⟩, by decide⟩, ⟨_, rfl⟩, by intro x h; cases h; exact nofun⟩

theorem witness_RegistersNeverBecomeEmpty : (∃ t, step (coreAt [0]) = .next t) ∧ (coreAt [0]).reg .sp ≠ none :=
  ⟨⟨_, rfl⟩, by decide⟩

theorem witness_FaultRecordNamesTheInstruction :
    (coreAt [14]).fault = none ∧ (coreAt [14]).atPc 0 ∧
    ∃ t f, step (coreAt [14]) = .next t ∧ t.fault = some f := ⟨rfl, rfl, _, _, rfl, rfl⟩

theorem witness_FaultsArePrecise :
    (coreAt [18]).fault = none ∧ (coreAt [18]).atPc 0 ∧ (coreAt [18]).atSp 4 ∧
    (coreAt [18]).reg .hp = some (.addr 0) ∧ ∃ t f, step (coreAt [18]) = .next t ∧ t.fault = some f :=
  ⟨rfl, rfl, rfl, rfl, _, _, rfl, rfl⟩

/-- The reset state meets the invariant. -/
theorem runInv_coreAt : RunInv (coreAt []) :=
  ⟨by decide, by decide, rfl, rfl, rfl, .inl rfl, .inl rfl, rfl, rfl, rfl, rfl, nofun⟩

theorem witness_OnlyListedFaultsAreRaised :
    RunInv (coreAt []) ∧ (coreAt []).fault = none ∧
    ∃ t f, exec (.pop (regW .r1)) (coreAt []) = .next t ∧ t.fault = some f :=
  ⟨runInv_coreAt, rfl, _, _, rfl, rfl⟩

theorem witness_StepKeepsTheInvariant : RunInv (coreAt []) ∧ ∃ t, step (coreAt []) = .next t :=
  ⟨runInv_coreAt, _, rfl⟩

theorem witness_StepAlwaysCompletes : RunInv (coreAt []) := runInv_coreAt

theorem witness_StepsFromResetComplete : extCfg.valid = true ∧ [(0 : RawWord)].length ≤ 2 ^ 63 - 4 := by decide

theorem witness_PushThenPopReturnsTheValue :
    (coreAt []).atPc 0 ∧ (coreAt []).atSp 4 ∧ (coreAt []).cfg.valid = true ∧
    Memory.wf (coreAt []).stack = true ∧ value (coreAt []) (.imm (.int 7)) 1 = .ok (int 7) ∧
    0 < (4 : Word64).toInt ∧ (4 : Word64).toInt ≤ (coreAt []).cfg.stackSize ∧ isSpecial .r1 = false ∧
    Reg.r1 ≠ .zf := ⟨rfl, rfl, rfl, rfl, rfl, by decide⟩

theorem witness_StoreThenLoadReturnsTheValue :
    (coreAt []).atPc 0 ∧ Memory.wf (coreAt []).heap = true ∧
    heapAddr (coreAt []) (.addr .heap 3) 1 = .ok 3 ∧ value (coreAt []) (.imm (.bool true)) 2 = .ok (.bool true) ∧
    isSpecial .r2 = false ∧ Reg.r2 ≠ .zf := ⟨rfl, rfl, rfl, rfl, rfl, by decide⟩

theorem witness_AllocThenPopGivesTheOldHeapPointer :
    (coreAt []).atPc 0 ∧ (coreAt []).atSp 4 ∧ (coreAt []).reg .hp = some (.addr 0) ∧
    (coreAt []).cfg.valid = true ∧ Memory.wf (coreAt []).stack = true ∧
    value (coreAt []) (.imm (.int 4)) 1 = .ok (.int 4) ∧ 0 ≤ (4 : Word64).toInt ∧ 0 ≤ (0 : Word64).toInt ∧
    (0 : Word64).toInt + (4 : Word64).toInt ≤ (coreAt []).cfg.heapSize ∧ 1 ≤ (4 : Word64).toInt ∧
    (4 : Word64).toInt ≤ (coreAt []).cfg.stackSize ∧ isSpecial .a1 = false ∧ Reg.a1 ≠ .zf :=
  ⟨rfl, rfl, rfl, rfl, rfl, rfl, by decide⟩

theorem witness_CallThenRetReturns :
    (extAt []).atPc 0 ∧ (extAt []).atSp 4 ∧ (extAt []).cfg.ext = true ∧ (extAt []).cfg.valid = true ∧
    Memory.wf (extAt []).stack = true ∧ 0 ≤ (0 : Word64).toInt ∧ (0 : Word64).toInt ≤ (extAt []).progLen ∧
    1 ≤ (4 : Word64).toInt ∧ (4 : Word64).toInt ≤ (extAt []).cfg.stackSize :=
  ⟨rfl, rfl, rfl, rfl, rfl, by decide⟩

theorem witness_PcWritesAreAdvanced : (coreAt []).atPc 0 := rfl

end Sys2Proof.Tests
end

section
/-! PROOF. 00_scope R9: `wrapW` identifies exactly the numbers congruent modulo `2^64`. -/

namespace Sys2Proof.Machine

theorem wrapW_eq_wrapW_iff (z n : Int) : wrapW n = wrapW z ↔ (2 ^ 64 : Int) ∣ n - z := by
  rw [← BitVec.toInt_inj, wrapW, wrapW, BitVec.toInt_ofInt, BitVec.toInt_ofInt,
    Int.bmod_eq_bmod_iff_bmod_sub_eq_zero, ← Int.dvd_iff_bmod_eq_zero]
  simp

/-- Settles O7: a 64-bit signed number is its own wrap, so `n` is `wrapW z` exactly when `n` and `z` wrap
to the same word. -/
theorem wrapIsTheCongruentNumber : Obligations.WrapIsTheCongruentNumber := by
  unfold Obligations.WrapIsTheCongruentNumber
  intro z n
  rw [← wrapW_eq_wrapW_iff]
  constructor
  · rintro rfl
    exact ⟨le_toInt _, toInt_lt _, wrapW_toInt _⟩
  · rintro ⟨hlo, hhi, heq⟩
    rw [← heq, toInt_wrapW n hlo hhi]

end Sys2Proof.Machine
end

section
/-! SUPPORT. What an instruction may write, said once: `permit` lists the registers, the stack slots and the heap
slots, `exec_leaves` says that nothing else is written. The frames, the constants, the registers that stay filled
and the invariant are read off from it. -/

namespace Sys2Proof.Machine

/-! ## States made by permitted writes -/

/-- What may be written: which Storables into which registers, which stack slots, which heap slots. -/
structure Permit where
  reg : Reg → Storable → Prop
  stack : Nat → Prop
  heap : Nat → Prop

/-- `t` comes from `s` by writes that `P` permits. A register is only ever given a Storable (10_state R31); a
memory slot may be cleared. -/
inductive Edits (P : Permit) (s : State) : State → Prop where
  | refl : Edits P s s
  | setReg {t : State} {r : Reg} {v : Storable} (he : Edits P s t) (hr : P.reg r v) :
      Edits P s (t.setReg r (some v))
  | writeStack {t : State} {a : Nat} {v : Slot} (he : Edits P s t) (ha : P.stack a) :
      Edits P s (t.writeStack a v)
  | writeHeap {t : State} {a : Nat} {v : Slot} (he : Edits P s t) (ha : P.heap a) :
      Edits P s (t.writeHeap a v)

/-- `t` comes from `s` by permitted writes, and possibly a fault taken at the PC of `s` (60_exceptions R257). -/
def Leaves (P : Permit) (s t : State) : Prop :=
  ∃ u, Edits P s u ∧
    (t = u ∨ ∃ f, f.pc = faultPc s ∧ u.reg .pc = s.reg .pc ∧ t = u.takeFault f)

section
variable {P : Permit} {s t : State}

theorem Edits.leaves (he : Edits P s t) : Leaves P s t := ⟨t, he, .inl rfl⟩

theorem Edits.constants (he : Edits P s t) : t.cfg = s.cfg ∧ t.prog = s.prog ∧ t.fault = s.fault := by
  induction he with
  | refl => exact ⟨rfl, rfl, rfl⟩
  | setReg _ _ ih => simpa using ih
  | writeStack _ _ ih => exact ih
  | writeHeap _ _ ih => exact ih

theorem Edits.reg_cases (he : Edits P s t) (r : Reg) :
    t.reg r = s.reg r ∨ ∃ v, t.reg r = some v ∧ P.reg r v := by
  induction he with
  | refl => exact .inl rfl
  | @setReg t q v _ hq ih =>
    by_cases hrq : r = q
    · subst hrq
      exact .inr ⟨v, reg_setReg_self t r _, hq⟩
    · simpa [hrq] using ih
  | writeStack _ _ ih => simpa using ih
  | writeHeap _ _ ih => simpa using ih

/-- What every permitted stack write keeps holds of the stack at the end. -/
theorem Edits.stack_induct (M : Memory → Prop) (he : Edits P s t)
    (hw : ∀ m a v, P.stack a → M m → M (memWrite m a v)) (h : M s.stack) : M t.stack := by
  induction he with
  | refl => exact h
  | setReg _ _ ih => simpa using ih
  | writeStack _ ha ih => exact hw _ _ _ ha ih
  | writeHeap _ _ ih => exact ih

/-- What every permitted heap write keeps holds of the heap at the end. -/
theorem Edits.heap_induct (M : Memory → Prop) (he : Edits P s t)
    (hw : ∀ m a v, P.heap a → M m → M (memWrite m a v)) (h : M s.heap) : M t.heap := by
  induction he with
  | refl => exact h
  | setReg _ _ ih => simpa using ih
  | writeStack _ _ ih => exact ih
  | writeHeap _ ha ih => exact hw _ _ _ ha ih

/-- Taking a fault hides no register, memory or constant: what `Edits` leaves there, `Leaves` leaves. -/
theorem Leaves.fields (h : Leaves P s t) :
    ∃ u, Edits P s u ∧ (∀ r, t.reg r = u.reg r) ∧ t.stack = u.stack ∧ t.heap = u.heap ∧
      t.cfg = u.cfg ∧ t.prog = u.prog := by
  obtain ⟨u, he, rfl | ⟨f, -, -, rfl⟩⟩ := h
  · exact ⟨t, he, fun _ => rfl, rfl, rfl, rfl, rfl⟩
  · exact ⟨u, he, reg_takeFault u f, rfl, rfl, rfl, rfl⟩

theorem Leaves.constants (h : Leaves P s t) : t.cfg = s.cfg ∧ t.prog = s.prog := by
  obtain ⟨u, he, -, -, -, hc, hp⟩ := h.fields
  obtain ⟨hc', hp', -⟩ := he.constants
  exact ⟨hc.trans hc', hp.trans hp'⟩

theorem Leaves.reg_cases (h : Leaves P s t) (r : Reg) :
    t.reg r = s.reg r ∨ ∃ v, t.reg r = some v ∧ P.reg r v := by
  obtain ⟨u, he, hr, -⟩ := h.fields
  rw [hr]
  exact he.reg_cases r

theorem Leaves.stack_induct (M : Memory → Prop) (h : Leaves P s t)
    (hw : ∀ m a v, P.stack a → M m → M (memWrite m a v)) (h0 : M s.stack) : M t.stack := by
  obtain ⟨u, he, -, hs, -⟩ := h.fields
  rw [hs]
  exact he.stack_induct M hw h0

theorem Leaves.heap_induct (M : Memory → Prop) (h : Leaves P s t)
    (hw : ∀ m a v, P.heap a → M m → M (memWrite m a v)) (h0 : M s.heap) : M t.heap := by
  obtain ⟨u, he, -, -, hh, -⟩ := h.fields
  rw [hh]
  exact he.heap_induct M hw h0

theorem Leaves.fault_cases (h : Leaves P s t) :
    t.fault = s.fault ∨ ∃ f, t.fault = some f ∧ f.pc = faultPc s ∧ t.reg .pc = s.reg .pc := by
  obtain ⟨u, he, rfl | ⟨f, hf, hpc, rfl⟩⟩ := h
  · exact .inl he.constants.2.2
  · exact .inr ⟨f, rfl, hf, by simpa using hpc⟩

end

/-! ## What a register holds at every point of a run -/

/-- The content 10_state R35 and R42 allow a register: the clauses of `RunInv` about registers, as one. -/
def allowed : Reg → Slot → Prop
  | .pc, v | .sp, v | .hp, v => holdsAddr v = true
  | .bp, v => v = none ∨ holdsAddr v = true
  | .zf, v => v = none ∨ holdsBool v = true
  | .r1, _ | .r2, _ | .r3, _ | .a1, _ | .a2, _ => True

theorem RunInv.allowed_reg {s : State} (h : RunInv s) (r : Reg) : allowed r (s.reg r) := by
  cases r with
  | pc => exact h.pcAddr
  | sp => exact h.spAddr
  | hp => exact h.hpAddr
  | bp => exact h.bpAddr
  | zf => exact h.zfBool
  | r1 | r2 | r3 | a1 | a2 => trivial

@[simp] theorem allowed_addr {r : Reg} {n : Word64} : allowed r (some (.addr n)) ↔ r ≠ .zf := by
  cases r <;> simp [allowed, holdsAddr, holdsBool]

@[simp] theorem allowed_zf_bool (b : Bool) : allowed .zf (some (.bool b)) := .inr rfl

/-- A register that is neither Special nor ZF may hold anything. -/
theorem allowed_of_general {r : Reg} (hr : isSpecial r = false) (hz : r ≠ .zf) (v : Slot) :
    allowed r v := by
  cases r with
  | pc | bp | sp | hp => cases hr
  | zf => exact absurd rfl hz
  | r1 | r2 | r3 | a1 | a2 => trivial

/-- What `coerce` yields may stand in its destination (40_engine_and_operands R153). -/
theorem allowed_of_coerce {s : State} {r : Reg} {v w : Storable} {j : Fin 3}
    (h : coerce s r v j = .ok w) (hz : r ≠ .zf) : allowed r (some w) := by
  have h := coerce_eq_ok.mp h
  split at h
  · obtain ⟨n, -, rfl⟩ := h
    exact allowed_addr.mpr hz
  · next hs => exact allowed_of_general (by simpa using hs) hz _

/-- ADD and SUB keep the variant of their destination (43_arithmetic R196). -/
theorem allowed_of_arithResult {s : State} {r : Reg} {f : Int → Int → Int} {d v : Storable}
    {n res : Word64} (h : arithResult s r f d n = .ok (v, res)) (hz : r ≠ .zf)
    (hd : allowed r (some d)) : allowed r (some v) := by
  cases d with
  | addr m =>
    cases h
    exact allowed_addr.mpr hz
  | int m =>
    cases h
    cases r <;> simp_all [allowed, holdsAddr]
  | char c => exact absurd h (raise_ne_ok _ _ _ _ _)
  | bool b => exact absurd h (raise_ne_ok _ _ _ _ _)

/-! ## What each instruction may write -/

/-- The registers of 10_state R43 that `i` may write: PC, its destination, and the implicit ones. -/
def mayWrite (i : Instr) (r : Reg) : Prop :=
  r = .pc ∨ isDestination i r = true ∨ implicitlyWrites i.opcode r = true

/-- The slot a push writes: the one below the number SP holds (41_stack R170). -/
def pushSlot (s : State) (a : Nat) : Prop :=
  ∃ n, rdNum s .sp 0 = .ok n ∧ (a : Int) = (wrapW (n.toInt - 1)).toInt ∧ a < s.cfg.stackSize

/-- The slot a pop clears: the one at the number SP holds (41_stack R171). -/
def popSlot (s : State) (a : Nat) : Prop :=
  ∃ n, rdNum s .sp 0 = .ok n ∧ (a : Int) = n.toInt ∧ a < s.cfg.stackSize

/-- What `i` may write in `s`. That a register gets a content it may hold rests on the invariant for ADD and SUB
alone, which keep the variant they find. -/
def permit (i : Instr) (s : State) : Permit where
  reg r v := mayWrite i r ∧ (RunInv s → allowed r (some v))
  stack a := (i.opcode ∈ [Opcode.push, .alloc, .call] ∧ pushSlot s a) ∨
    (i.opcode ∈ [Opcode.pop, .ret] ∧ popSlot s a)
  heap a := ∃ x w, i = .store (.operand x) w ∧ heapAddr s x 1 = .ok a

section
variable {i : Instr} {s t u : State}

theorem mayWrite_pc (i : Instr) : mayWrite i .pc := .inl rfl

theorem mayWrite_implicit {r : Reg} (h : implicitlyWrites i.opcode r = true) : mayWrite i r :=
  .inr (.inr h)

theorem mayWrite_destination {r : Reg} (h : isDestination i r = true) : mayWrite i r := .inr (.inl h)

theorem heapAddr_lt {x : Operand} {j : Fin 3} {a : Nat} (h : heapAddr s x j = .ok a) :
    a < s.cfg.heapSize := by
  obtain ⟨n, -, h0, hn, rfl⟩ := heapAddr_eq_ok.mp h
  omega

/-- Whether a register reads as a number does not depend on the other registers. -/
theorem rdNum_setReg_of_ne {r q : Reg} {v : Slot} {j : Fin 3} {n : Word64} (h : r ≠ q) :
    rdNum (s.setReg q v) r j = .ok n ↔ rdNum s r j = .ok n := by
  simp [rdNum_eq_ok, h]

/-- The write of an Address into PC, SP or HP. -/
theorem Edits.setAddr (he : Edits (permit i s) s t) (r : Reg) (hr : mayWrite i r) (hz : r ≠ .zf)
    (n : Word64) : Edits (permit i s) s (t.setReg r (some (.addr n))) :=
  he.setReg ⟨hr, fun _ => allowed_addr.mpr hz⟩

/-- A jump or an advance. -/
theorem Edits.setPc (he : Edits (permit i s) s t) (n : Word64) :
    Edits (permit i s) s (t.setReg .pc (some (.addr n))) :=
  he.setAddr .pc (mayWrite_pc i) nofun n

/-- The move of SP by a push or a pop. -/
theorem Edits.setSp (he : Edits (permit i s) s t) (hr : implicitlyWrites i.opcode .sp = true) (n : Word64) :
    Edits (permit i s) s (t.setReg .sp (some (.addr n))) :=
  he.setAddr .sp (mayWrite_implicit hr) nofun n

/-- The advance of HP by ALLOC. -/
theorem Edits.setHp (he : Edits (permit i s) s t) (hr : implicitlyWrites i.opcode .hp = true) (n : Word64) :
    Edits (permit i s) s (t.setReg .hp (some (.addr n))) :=
  he.setAddr .hp (mayWrite_implicit hr) nofun n

/-- The write of ZF by ADD, SUB and the compares. -/
theorem Edits.writeZf (he : Edits (permit i s) s t) (hz : implicitlyWrites i.opcode .zf = true) (b : Bool) :
    Edits (permit i s) s (writeZf t b) :=
  he.setReg ⟨mayWrite_implicit hz, fun _ => allowed_zf_bool b⟩

/-- The write of the coerced value by MOV, POP and LOAD, or by RET into PC. -/
theorem Edits.setCoerced {s' : State} {r : Reg} {v w : Storable} {j : Fin 3}
    (he : Edits (permit i s) s t) (hr : mayWrite i r) (hz : r ≠ .zf) (hc : coerce s' r v j = .ok w) :
    Edits (permit i s) s (t.setReg r (some w)) :=
  he.setReg ⟨hr, fun _ => allowed_of_coerce hc hz⟩

/-- The stack instructions write SP implicitly (10_state R43). -/
theorem implicitlyWrites_sp {o : Opcode}
    (h : o ∈ [Opcode.push, .alloc, .call] ∨ o ∈ [Opcode.pop, .ret]) : implicitlyWrites o .sp = true := by
  simp only [List.mem_cons, List.not_mem_nil, or_false] at h
  rcases h with (rfl | rfl | rfl) | (rfl | rfl) <;> rfl

/-- A push, begun where SP and the size of the stack are those of `s`. -/
theorem Edits.push {v : Storable} (he : Edits (permit i s) s t)
    (ho : i.opcode ∈ [Opcode.push, .alloc, .call])
    (hsp : ∀ n, rdNum t .sp 0 = .ok n → rdNum s .sp 0 = .ok n) (h : push t v = .ok u) :
    Edits (permit i s) s u := by
  obtain ⟨n, hn, h0, hlt, rfl⟩ := push_eq_ok.mp h
  rw [he.constants.1] at hlt
  refine (he.setSp (implicitlyWrites_sp (.inl ho)) _).writeStack (.inl ⟨ho, n, hsp n hn, ?_, ?_⟩)
  · exact Int.toNat_of_nonneg h0
  · omega

/-- The commit of a pop that could be read. -/
theorem edits_popCommit {n : Word64} {v : Storable} (ho : i.opcode ∈ [Opcode.pop, .ret])
    (h : popRead s = .ok (n, v)) : Edits (permit i s) s (popCommit s n) := by
  obtain ⟨hn, h0, hlt, -⟩ := popRead_eq_ok.mp h
  refine Edits.setSp (.writeStack .refl (.inr ⟨ho, n, hn, ?_, ?_⟩)) (implicitlyWrites_sp (.inr ho)) _
  · exact Int.toNat_of_nonneg h0
  · omega

/-! ## Every instruction -/

/-- An effect function writes what its instruction may write. -/
theorem Succeeds.edits {b : Bool} (h : Succeeds i s b u) : Edits (permit i s) s u := by
  cases i with
  | nop =>
    obtain ⟨-, rfl⟩ := h
    exact .refl
  | mov o1 o2 =>
    obtain ⟨r, y, v, w, rfl, -, hz, -, hc, -, rfl⟩ := h
    exact Edits.refl.setCoerced (mayWrite_destination (by simp [isDestination])) hz hc
  | push o1 =>
    obtain ⟨x, v, -, -, hp, -⟩ := h
    exact Edits.refl.push (by simp [Instr.opcode]) (fun _ hn => hn) hp
  | pop o1 =>
    obtain ⟨r, n, v, w, rfl, hz, hn, hc, -, rfl⟩ := h
    exact (edits_popCommit (by simp [Instr.opcode]) hn).setCoerced
      (mayWrite_destination (by simp [isDestination])) hz hc
  | alloc o1 =>
    obtain ⟨x, k, a, -, -, -, -, -, -, hp, -⟩ := h
    exact (Edits.refl.setHp rfl _).push (by simp [Instr.opcode])
      (fun _ hn => (rdNum_setReg_of_ne (by decide)).mp hn) hp
  | store o1 o2 =>
    obtain ⟨x, y, a, v, rfl, -, ha, -, -, rfl⟩ := h
    exact Edits.refl.writeHeap ⟨x, o2, rfl, ha⟩
  | load o1 o2 =>
    obtain ⟨r, y, a, v, w, rfl, -, hz, -, -, hc, -, rfl⟩ := h
    exact Edits.refl.setCoerced (mayWrite_destination (by simp [isDestination])) hz hc
  | call o1 =>
    obtain ⟨t, p, s', -, -, hp, -, rfl⟩ := h
    exact (Edits.refl.push (by simp [Instr.opcode]) (fun _ hn => hn) hp).setPc t
  | ret =>
    obtain ⟨n, v, w, hn, hc, -, rfl⟩ := h
    exact (edits_popCommit (by simp [Instr.opcode]) hn).setCoerced (mayWrite_pc _) nofun hc
  | add o1 o2 | sub o1 o2 =>
    obtain ⟨r, n, d, v, res, f, rfl, -, hz, hd, hv, -, rfl⟩ := h
    refine Edits.writeZf (.setReg .refl ⟨mayWrite_destination (by simp [isDestination]), fun hi => ?_⟩) rfl _
    exact allowed_of_arithResult hv hz (hd ▸ hi.allowed_reg r)
  | jmp o1 =>
    obtain ⟨t, -, -, rfl⟩ := h
    exact Edits.refl.setPc t
  | je o1 | jne o1 =>
    obtain ⟨t, ⟨-, rfl⟩ | ⟨-, rfl⟩⟩ := h
    · exact Edits.refl.setPc t
    · exact .refl
  | eq o1 o2 | ne o1 o2 | lt o1 o2 | le o1 o2 =>
    obtain ⟨c, -, rfl⟩ := h
    exact Edits.refl.writeZf rfl c

/-- What a fault left was written within the permission, and PC stands where it stood (60_exceptions R260). -/
theorem StopsWith.edits {k : FaultKind} {j : Fin 3} {q : Option Reg}
    (h : StopsWith i.opcode s (.raise k j q t)) :
    Edits (permit i s) s t ∧ t.reg .pc = s.reg .pc := by
  rcases h.left_eq with rfl | ⟨v, ho, rfl⟩ | ⟨v, w, ho, rfl⟩ | ⟨v, ho, rfl⟩
  · exact ⟨.refl, rfl⟩
  · exact ⟨Edits.refl.setSp (by rcases ho with ho | ho <;> rw [ho] <;> rfl) v, rfl⟩
  · exact ⟨(Edits.refl.setHp (by rw [ho]; rfl) v).setSp (by rw [ho]; rfl) w, rfl⟩
  · exact ⟨Edits.refl.setHp (by rw [ho]; rfl) v, rfl⟩

/-- An instruction writes nothing but what it may write. -/
theorem exec_leaves (h : exec i s = .next t) : Leaves (permit i s) s t := by
  rcases exec_cases h with hs | ⟨u, v, n, hs, -, -, rfl⟩ | ⟨k, j, r, left, hs, rfl⟩
  · exact hs.edits.leaves
  · exact (hs.edits.setPc _).leaves
  · obtain ⟨he, hpc⟩ := hs.edits
    exact ⟨left, he, .inr ⟨_, rfl, hpc, rfl⟩⟩

/-- A step changes nothing, or it is made in a state without a fault and writes what one instruction may write; a
fault of the fetch writes nothing, so it is within the permission of NOP. -/
theorem step_leaves (h : step s = .next t) :
    t = s ∨ s.fault = none ∧ ∃ i, Leaves (permit i s) s t := by
  rcases step_cases h with rfl | ⟨o, k, j, r, hf, rfl⟩ | ⟨i, hi, he⟩
  · exact .inl rfl
  · exact .inr ⟨hf, .nop, s, .refl, .inr ⟨_, rfl, rfl, rfl⟩⟩
  · obtain ⟨p, o, hf, -⟩ := fetch_eq_run hi
    exact .inr ⟨hf, i, exec_leaves he⟩

end

end Sys2Proof.Machine
end

section
/-! PROOF. 10_state R35, R42, R44, R45: the invariant of every run, clause by clause, from what a step may
write. -/

namespace Sys2Proof.Machine

section
variable {i : Instr} {s t : State}

theorem faultPc_of_atPc {p : Word64} (h : s.reg .pc = some (.addr p)) : faultPc s = p := by
  simp [faultPc, h]

/-- Every slot a permitted stack write names is one of the stack's. -/
theorem lt_of_permit_stack {a : Nat} (h : (permit i s).stack a) : a < s.cfg.stackSize := by
  rcases h with ⟨-, n, -, -, hlt⟩ | ⟨-, n, -, -, hlt⟩ <;> exact hlt

/-- Every slot a permitted heap write names is one of the heap's. -/
theorem lt_of_permit_heap {a : Nat} (h : (permit i s).heap a) : a < s.cfg.heapSize := by
  obtain ⟨x, w, -, ha⟩ := h
  exact heapAddr_lt ha

theorem Leaves.allowed_reg (h : Leaves (permit i s) s t) (hs : RunInv s) (r : Reg) :
    allowed r (t.reg r) := by
  rcases h.reg_cases r with hr | ⟨v, hr, -, hv⟩ <;> rw [hr]
  · exact hs.allowed_reg r
  · exact hv hs

/-- A fault recorded by an instruction begun without one names the PC, which stayed. -/
theorem Leaves.fault_at_pc {f : FaultRecord} (h : Leaves (permit i s) s t) (hs : RunInv s)
    (hn : s.fault = none) (hf : t.fault = some f) : t.reg .pc = some (.addr f.pc) := by
  obtain ⟨p, hp⟩ := hs.pc_eq
  rcases h.fault_cases with hf' | ⟨g, hg, hgp, hpc⟩
  · rw [hf', hn] at hf
    cases hf
  · rw [hg] at hf
    cases hf
    rw [hpc, hgp, faultPc_of_atPc hp, hp]

/-- Writes an instruction may make keep the invariant. -/
theorem RunInv.of_leaves (hs : RunInv s) (hn : s.fault = none) (h : Leaves (permit i s) s t) :
    RunInv t := by
  obtain ⟨hcfg, hprog⟩ := h.constants
  exact {
    cfgValid := hcfg ▸ hs.cfgValid
    progBound := by simpa only [State.progLen, hprog] using hs.progBound
    pcAddr := h.allowed_reg hs .pc
    spAddr := h.allowed_reg hs .sp
    hpAddr := h.allowed_reg hs .hp
    bpAddr := h.allowed_reg hs .bp
    zfBool := h.allowed_reg hs .zf
    stackWf := h.stack_induct (Memory.wf · = true) (fun _ a v _ => Memory.wf_memWrite a v) hs.stackWf
    stackWithin := hcfg ▸ h.stack_induct (Memory.within s.cfg.stackSize · = true)
      (fun _ _ v ha => Memory.within_memWrite v (lt_of_permit_stack ha)) hs.stackWithin
    heapWf := h.heap_induct (Memory.wf · = true) (fun _ a v _ => Memory.wf_memWrite a v) hs.heapWf
    heapWithin := hcfg ▸ h.heap_induct (Memory.within s.cfg.heapSize · = true)
      (fun _ _ v ha => Memory.within_memWrite v (lt_of_permit_heap ha)) hs.heapWithin
    faultAtPc := fun _ => h.fault_at_pc hs hn }

end

/-- Settles O53: a step that changes anything writes what one instruction may write, and such writes keep every
clause. -/
theorem stepKeepsTheInvariant : Obligations.StepKeepsTheInvariant := by
  intro s t hs h
  rcases step_leaves h with rfl | ⟨hn, i, hl⟩
  · exact hs
  · exact hs.of_leaves hn hl

end Sys2Proof.Machine
end

section
/-! PROOF. The frames (10_state R31, R43 to R46): what a step leaves as it was is what its instruction may not
write. -/

namespace Sys2Proof.Machine

section
variable {P : Permit} {s t : State}

theorem Leaves.memRead_stack (h : Leaves P s t) {a : Nat} (ha : ¬ P.stack a) :
    memRead t.stack a = memRead s.stack a := by
  refine h.stack_induct (memRead · a = memRead s.stack a) (fun m b v hb hm => ?_) rfl
  have hab : a ≠ b := by rintro rfl; exact ha hb
  exact (memRead_memWrite_of_ne v hab).trans hm

theorem Leaves.memRead_heap (h : Leaves P s t) {a : Nat} (ha : ¬ P.heap a) :
    memRead t.heap a = memRead s.heap a := by
  refine h.heap_induct (memRead · a = memRead s.heap a) (fun m b v hb hm => ?_) rfl
  have hab : a ≠ b := by rintro rfl; exact ha hb
  exact (memRead_memWrite_of_ne v hab).trans hm

/-- Without a permitted stack slot the stack is the same data, not only the same content. -/
theorem Leaves.stack_eq (h : Leaves P s t) (hP : ∀ a, ¬ P.stack a) : t.stack = s.stack :=
  h.stack_induct (· = s.stack) (fun _ a _ ha => absurd ha (hP a)) rfl

theorem Leaves.heap_eq (h : Leaves P s t) (hP : ∀ a, ¬ P.heap a) : t.heap = s.heap :=
  h.heap_induct (· = s.heap) (fun _ a _ ha => absurd ha (hP a)) rfl

theorem rdNum_eq_ok_iff_bind {r : Reg} {j : Fin 3} {n : Word64} :
    rdNum s r j = .ok n ↔ (s.reg r).bind numBits = some n :=
  rdNum_eq_ok.trans Option.bind_eq_some_iff.symm

end

/-- Settles O45: nothing permitted is a constant. -/
theorem hostConstantsStay : Obligations.HostConstantsStay := by
  intro s t h
  rcases step_leaves h with rfl | ⟨-, i, hl⟩
  · exact ⟨rfl, rfl⟩
  · exact hl.constants

/-- Settles O46: the registers an instruction may write are those of the table of 10_state R43. -/
theorem registerFrame : Obligations.RegisterFrame := by
  intro i s t r h hpc hd hi
  rcases (exec_leaves h).reg_cases r with hr | ⟨v, -, hw, -⟩
  · exact hr
  · rcases hw with hw | hw | hw
    · exact absurd hw hpc
    · rw [hd] at hw
      cases hw
    · rw [hi] at hw
      cases hw

theorem not_pops_of_pushes {o : Opcode} (h : o ∈ [Opcode.push, .alloc, .call]) : o ∉ [Opcode.pop, .ret] := by
  simp only [List.mem_cons, List.not_mem_nil, or_false] at h
  rcases h with rfl | rfl | rfl <;> decide

/-- Settles O47: a pushing instruction may write the slot below SP, a popping one the slot at SP, another none. -/
theorem stackFrame : Obligations.StackFrame := by
  intro i s t a h
  have hl := exec_leaves h
  refine ⟨fun ho ha => hl.memRead_stack ?_, fun ho ha => hl.memRead_stack ?_, fun ho => hl.stack_eq ?_⟩
  · rintro (⟨-, n, hn, hna, -⟩ | ⟨ho', -⟩)
    · exact ha n (rdNum_eq_ok_iff_bind.mp hn) hna
    · exact not_pops_of_pushes ho ho'
  · rintro (⟨ho', -⟩ | ⟨-, n, hn, hna, -⟩)
    · exact not_pops_of_pushes ho' ho
    · exact ha n (rdNum_eq_ok_iff_bind.mp hn) hna
  · rintro b (⟨ho', -⟩ | ⟨ho', -⟩)
    · exact ho (List.mem_append_left [Opcode.pop, .ret] ho')
    · exact ho (List.mem_append_right [Opcode.push, .alloc, .call] ho')

/-- Settles O48: STORE alone may write the heap, at the index its first operand names. -/
theorem heapFrame : Obligations.HeapFrame := by
  intro i s t h
  have hl := exec_leaves h
  refine ⟨fun ho => hl.heap_eq ?_, fun w1 w2 a hi ha => hl.memRead_heap ?_⟩
  · rintro a ⟨x, w, rfl, -⟩
    exact ho rfl
  · rintro ⟨x, w, hx, hxa⟩
    cases hi.symm.trans hx
    exact ha x rfl hxa

/-- Settles O49: every permitted register write is of a Storable. -/
theorem registersNeverBecomeEmpty : Obligations.RegistersNeverBecomeEmpty := by
  intro s t r h hr
  rcases step_leaves h with rfl | ⟨-, i, hl⟩
  · exact hr
  · rcases hl.reg_cases r with h' | ⟨v, h', -⟩ <;> rw [h']
    · exact hr
    · exact Option.some_ne_none v

end Sys2Proof.Machine
end

section
/-! PROOF. The state after reset (10_state R50, R51), and that it meets the invariant. -/

namespace Sys2Proof.Machine

theorem config_valid_iff (c : Config) :
    c.valid = true ↔ (1 ≤ c.stackSize ∧ c.stackSize < 2 ^ 63 ∧ c.heapSize < 2 ^ 63) ∧
      (c.bpReset = none ∨ holdsAddr c.bpReset = true) := by
  simp only [Config.valid, Bool.and_eq_true, decide_eq_true_eq]
  refine and_congr_right fun _ => ?_
  match c.bpReset with
  | none | some (.addr _) | some (.int _) | some (.char _) | some (.bool _) => simp [holdsAddr]

/-- A size within the bounds of 00_scope R7 is the number of its Address. -/
theorem toInt_size {n : Nat} (h : n < 2 ^ 63) : (BitVec.ofNat 64 n).toInt = n := by
  have hw : BitVec.ofNat 64 n = wrapW n := by simp [wrapW]
  rw [hw, toInt_wrapW n (by omega) (by omega)]

/-- After reset PC is 0, so a program with a word runs (10_state R51). -/
theorem status_resetWith (c : Config) (prog : List RawWord) :
    (State.resetWith c prog).status = if prog.length = 0 then .halted else .running := by
  simp [State.status, State.resetWith, State.reg, State.progLen]

/-- Settles O1: the bound on StackSize is what makes SP's Address hold that number. -/
theorem resetLeavesTheStatedValues : Obligations.ResetLeavesTheStatedValues := by
  refine ⟨rfl, fun c prog hc => ?_⟩
  obtain ⟨⟨-, hss, -⟩, -⟩ := (config_valid_iff c).mp hc
  exact ⟨rfl, ⟨_, rfl, toInt_size hss⟩, rfl, rfl, rfl, rfl, rfl, rfl, rfl, rfl, memRead_nil, memRead_nil,
    rfl, status_resetWith c prog⟩

theorem runInv_resetWith {c : Config} {prog : List RawWord} (hc : c.valid = true)
    (hp : prog.length ≤ 2 ^ 63 - 4) : RunInv (State.resetWith c prog) where
  cfgValid := hc
  progBound := hp
  pcAddr := rfl
  spAddr := rfl
  hpAddr := rfl
  bpAddr := ((config_valid_iff c).mp hc).2
  zfBool := .inl rfl
  stackWf := rfl
  stackWithin := rfl
  heapWf := rfl
  heapWithin := rfl
  faultAtPc := nofun

/-- Settles O2: only the clause on BP needs the legal configuration. -/
theorem resetMeetsTheInvariant : Obligations.ResetMeetsTheInvariant :=
  ⟨fun _ _ hc hp => runInv_resetWith hc hp, runInv_resetWith (by decide) (by decide)⟩

end Sys2Proof.Machine
end

section
/-! PROOF. 10_state R57: the 67 bits of a Slot as a number, which determines the Slot. -/

namespace Sys2Proof.Machine

/-- The three fields of a filled Slot, read as one number: `valid` at 2^66, `type` at 2^64. -/
theorem toNat_slotBits (v : Storable) :
    (slotBits (some v)).toNat = 2 ^ 66 + (typeBits v).toNat * 2 ^ 64 + (payloadBits v).toNat := by
  have ht : (typeBits v).toNat < 2 ^ 2 := (typeBits v).isLt
  have hp : (payloadBits v).toNat < 2 ^ 64 := (payloadBits v).isLt
  rw [slotBits, BitVec.toNat_append, BitVec.toNat_append, ← Nat.shiftLeft_add_eq_or_of_lt ht,
    ← Nat.shiftLeft_add_eq_or_of_lt hp]
  simp only [Nat.shiftLeft_eq, BitVec.toNat_ofNat]
  omega

theorem fields_eq_of_slotBits_eq {v w : Storable} (h : slotBits (some v) = slotBits (some w)) :
    typeBits v = typeBits w ∧ payloadBits v = payloadBits w := by
  have hv : (payloadBits v).toNat < 2 ^ 64 := (payloadBits v).isLt
  have hw : (payloadBits w).toNat < 2 ^ 64 := (payloadBits w).isLt
  have h := congrArg BitVec.toNat h
  rw [toNat_slotBits, toNat_slotBits] at h
  exact ⟨BitVec.eq_of_toNat_eq (by omega), BitVec.eq_of_toNat_eq (by omega)⟩

theorem slotBits_some_ne_zero (v : Storable) : slotBits (some v) ≠ 0 := by
  intro h
  have h := congrArg BitVec.toNat h
  rw [toNat_slotBits] at h
  simp at h

/-- A Char's payload is its code, with zeros above its 32 bits. -/
theorem toNat_payloadBits_char (c : CharCode) : (payloadBits (.char c)).toNat = c.toNat :=
  BitVec.toNat_setWidth_of_le (by decide)

theorem toNat_payloadBits_bool (b : Bool) : (payloadBits (.bool b)).toNat = b.toNat := by
  cases b <;> rfl

/-- The type number tells the variant and the payload its content. -/
theorem storable_eq_of_fields {v w : Storable} (ht : typeBits v = typeBits w)
    (hp : payloadBits v = payloadBits w) : v = w := by
  cases v with
  | int m | addr m =>
    cases w <;> simp [typeBits] at ht
    exact congrArg _ hp
  | char c =>
    cases w <;> simp [typeBits] at ht
    have hn := congrArg BitVec.toNat hp
    rw [toNat_payloadBits_char, toNat_payloadBits_char] at hn
    exact congrArg _ (BitVec.eq_of_toNat_eq hn)
  | bool b =>
    cases w <;> simp [typeBits] at ht
    next c => cases b <;> cases c <;> simp [payloadBits] at hp ⊢

/-- Distinct Slots have distinct bits. -/
theorem slotBits_injective : Function.Injective slotBits := by
  intro v w h
  match v, w with
  | none, none => rfl
  | none, some w => exact absurd h.symm (slotBits_some_ne_zero w)
  | some v, none => exact absurd h (slotBits_some_ne_zero v)
  | some v, some w =>
    obtain ⟨ht, hp⟩ := fields_eq_of_slotBits_eq h
    rw [storable_eq_of_fields ht hp]

/-- Settles O6: the number of a filled Slot, variant by variant, and that the bits tell Slots apart. -/
theorem slotLayout : Obligations.SlotLayout := by
  refine ⟨rfl, fun n => ?_, fun c => ?_, fun b => ?_, fun n => ?_, fun _ _ h => slotBits_injective h,
    fun _ _ => rfl, fun _ _ => ⟨rfl, rfl⟩, fun _ _ _ => ⟨rfl, rfl⟩⟩
  · simp [toNat_slotBits, typeBits, payloadBits]
  · simp [toNat_slotBits, typeBits, toNat_payloadBits_char]
  · simp [toNat_slotBits, typeBits, toNat_payloadBits_bool]
  · simp [toNat_slotBits, typeBits, payloadBits]

end Sys2Proof.Machine
end

section
/-! PROOF. 30_encoding R102, R103: what a word of each kind decodes to, which patterns are `Invalid`, and that
decoding and encoding one word are inverse. -/

namespace Sys2Proof

/-! ## A word as a number -/

theorem toNat_rawWord (k : BitVec 8) (p : BitVec 64) : (rawWord k p).toNat = k.toNat * 2 ^ 64 + p.toNat := by
  rw [rawWord, BitVec.toNat_append, ← Nat.shiftLeft_add_eq_or_of_lt p.isLt, Nat.shiftLeft_eq]

theorem ofNat_fields (k : BitVec 8) (p : BitVec 64) :
    BitVec.ofNat 72 (k.toNat * 2 ^ 64 + p.toNat) = rawWord k p := by
  rw [← toNat_rawWord, BitVec.ofNat_toNat, BitVec.setWidth_eq]

/-- The bits from `n` on are zero exactly when the number is below `2 ^ n`. -/
theorem extractLsb'_high_eq_zero {n m : Nat} (h : n + m = 64) (p : BitVec 64) :
    p.extractLsb' n m = 0#m ↔ p.toNat < 2 ^ n := by
  have hlt : p.toNat / 2 ^ n < 2 ^ m := by
    rw [Nat.div_lt_iff_lt_mul (by positivity), ← pow_add, Nat.add_comm, h]
    exact p.isLt
  rw [← BitVec.toNat_inj, BitVec.extractLsb'_toNat, Nat.shiftRight_eq_div_pow, Nat.mod_eq_of_lt hlt]
  simp

/-! ## Payloads: an opcode number, a register number, a Char, a Bool -/

theorem toNat_opcodeNumber (o : Opcode) : (BitVec.ofNat 64 o.number).toNat = o.number :=
  Nat.mod_eq_of_lt (by have := o.number_le; omega)

theorem toNat_regNumber (r : Reg) : (BitVec.ofNat 64 r.number).toNat = r.number :=
  Nat.mod_eq_of_lt (by have := r.number_le; omega)

@[simp] theorem decodeOpcode_number (o : Opcode) : decodeOpcode (BitVec.ofNat 64 o.number) = .op o := by
  rw [decodeOpcode, toNat_opcodeNumber, Opcode.ofNumber_number]

@[simp] theorem decodeReg_number (r : Reg) : decodeReg (BitVec.ofNat 64 r.number) = .operand (.reg r) := by
  rw [decodeReg, toNat_regNumber, Reg.ofNumber_number]

@[simp] theorem decodeChar_code (c : CharCode) : decodeChar (c.setWidth 64) = .operand (.imm (.char c)) := by
  have hn : (c.setWidth 64).toNat = c.toNat := BitVec.toNat_setWidth_of_le (by decide)
  have hpad : (c.setWidth 64).extractLsb' 32 32 = 0#32 := by
    rw [extractLsb'_high_eq_zero rfl, hn]
    exact c.isLt
  have hcode : (c.setWidth 64).extractLsb' 0 32 = c := by
    rw [← BitVec.toNat_inj, BitVec.extractLsb'_toNat, hn, Nat.shiftRight_zero, Nat.mod_eq_of_lt c.isLt]
  rw [decodeChar, if_pos hpad, hcode]

@[simp] theorem decodeBool_bit (b : Bool) :
    decodeBool (if b then 1#64 else 0#64) = .operand (.imm (.bool b)) := by
  cases b <;> rfl

theorem decodeOpcode_eq_invalid {p : BitVec 64} : decodeOpcode p = .invalid ↔ 17 < p.toNat := by
  rw [← Opcode.ofNumber_eq_none, decodeOpcode]
  split <;> simp [*]

theorem decodeReg_eq_invalid {p : BitVec 64} : decodeReg p = .invalid ↔ 9 < p.toNat := by
  rw [← Reg.ofNumber_eq_none, decodeReg]
  split <;> simp [*]

theorem decodeChar_eq_invalid {p : BitVec 64} : decodeChar p = .invalid ↔ 2 ^ 32 ≤ p.toNat := by
  simp only [decodeChar, ite_eq_right_iff, reduceCtorEq, imp_false]
  rw [extractLsb'_high_eq_zero rfl, not_lt]

theorem decodeBool_eq_invalid {p : BitVec 64} : decodeBool p = .invalid ↔ 2 ≤ p.toNat := by
  simp only [decodeBool, ite_eq_right_iff, reduceCtorEq, imp_false]
  rw [extractLsb'_high_eq_zero rfl, not_lt, pow_one]

theorem encodeWord_decodeOpcode {p : BitVec 64} (h : decodeOpcode p ≠ .invalid) :
    encodeWord (decodeOpcode p) = rawWord 0x00 p := by
  cases ho : Opcode.ofNumber p.toNat with
  | none => simp [decodeOpcode, ho] at h
  | some o =>
    have hp : p = BitVec.ofNat 64 o.number := by rw [← Opcode.ofNumber_eq_some.mp ho]; simp
    rw [hp, decodeOpcode_number]
    rfl

theorem encodeWord_decodeReg {p : BitVec 64} (h : decodeReg p ≠ .invalid) :
    encodeWord (decodeReg p) = rawWord 0x01 p := by
  cases hr : Reg.ofNumber p.toNat with
  | none => simp [decodeReg, hr] at h
  | some r =>
    have hp : p = BitVec.ofNat 64 r.number := by rw [← Reg.ofNumber_eq_some.mp hr]; simp
    rw [hp, decodeReg_number]
    rfl

theorem encodeWord_decodeChar {p : BitVec 64} (h : decodeChar p ≠ .invalid) :
    encodeWord (decodeChar p) = rawWord 0x03 p := by
  have hp : p.toNat < 2 ^ 32 := not_le.mp (decodeChar_eq_invalid.not.mp h)
  have hcode : p = (BitVec.ofNat 32 p.toNat).setWidth 64 := by
    apply BitVec.eq_of_toNat_eq
    rw [BitVec.toNat_setWidth_of_le (by decide), BitVec.toNat_ofNat]
    omega
  rw [hcode, decodeChar_code]
  rfl

theorem encodeWord_decodeBool {p : BitVec 64} (h : decodeBool p ≠ .invalid) :
    encodeWord (decodeBool p) = rawWord 0x04 p := by
  have hp : p.toNat < 2 := not_le.mp (decodeBool_eq_invalid.not.mp h)
  have hbit : p = if decide (p.toNat = 1) then 1#64 else 0#64 := by
    apply BitVec.eq_of_toNat_eq
    obtain h0 | h1 : p.toNat = 0 ∨ p.toNat = 1 := by omega
    · simp [h0]
    · simp [h1]
  rw [hbit, decodeBool_bit]
  rfl

/-! ## Words -/

theorem decodeWord_encodeWord {w : Word} (h : w ≠ .invalid) : decodeWord (encodeWord w) = w := by
  cases w with
  | op o => simp [encodeWord, decodeWord]
  | operand x =>
    cases x with
    | reg r => simp [encodeWord, encodeOperand, decodeWord]
    | imm v => cases v <;> simp [encodeWord, encodeOperand, encodeImm, decodeWord]
    | off b d => cases b <;> simp [encodeWord, encodeOperand, decodeWord]
    | addr sp n => cases sp <;> simp [encodeWord, encodeOperand, decodeWord]
  | invalid => exact absurd rfl h

theorem rawWord_payloadOf {b : RawWord} {k : BitVec 8} (h : (kindOf b).toNat = k.toNat) :
    rawWord k (payloadOf b) = b := by
  rw [← BitVec.eq_of_toNat_eq h, rawWord_fields]

/-- Only opcode, register, Char and Bool payloads can be `Invalid`; the other kinds carry the payload as it is.
The case `h_n` of the split is kind `n - 1`, `h_10` the reserved kinds. -/
theorem encodeWord_decodeWord {b : RawWord} (h : decodeWord b ≠ .invalid) : encodeWord (decodeWord b) = b := by
  unfold decodeWord at h ⊢
  split
  case h_1 hk => exact (encodeWord_decodeOpcode (by simpa [hk] using h)).trans (rawWord_payloadOf hk)
  case h_2 hk => exact (encodeWord_decodeReg (by simpa [hk] using h)).trans (rawWord_payloadOf hk)
  case h_4 hk => exact (encodeWord_decodeChar (by simpa [hk] using h)).trans (rawWord_payloadOf hk)
  case h_5 hk => exact (encodeWord_decodeBool (by simpa [hk] using h)).trans (rawWord_payloadOf hk)
  case h_10 => simp_all
  all_goals exact rawWord_payloadOf ‹_›

theorem decodeWord_eq_invalid {b : RawWord} :
    decodeWord b = .invalid ↔
      9 ≤ (kindOf b).toNat ∨ ((kindOf b).toNat = 0 ∧ 17 < (payloadOf b).toNat) ∨
        ((kindOf b).toNat = 1 ∧ 9 < (payloadOf b).toNat) ∨
        ((kindOf b).toNat = 3 ∧ (payloadOf b).toNat / 2 ^ 32 ≠ 0) ∨
        ((kindOf b).toNat = 4 ∧ (payloadOf b).toNat / 2 ≠ 0) := by
  unfold decodeWord
  split
  case h_1 hk => rw [hk, decodeOpcode_eq_invalid]; omega
  case h_2 hk => rw [hk, decodeReg_eq_invalid]; omega
  case h_4 hk => rw [hk, decodeChar_eq_invalid]; omega
  case h_5 hk => rw [hk, decodeBool_eq_invalid]; omega
  case h_10 => simp only [imp_false, true_iff] at *; omega
  all_goals simp [*]

/-- The pattern with kind `k` and payload `p` as one number decodes to the word whose encoding has these fields. -/
theorem decodeWord_ofNat (w : Word) (k : BitVec 8) (hw : w ≠ .invalid) {p : BitVec 64}
    (h : encodeWord w = rawWord k p) : decodeWord (BitVec.ofNat 72 (k.toNat * 2 ^ 64 + p.toNat)) = w := by
  rw [ofNat_fields, ← h, decodeWord_encodeWord hw]

theorem decodeWord_opcodeNumber (o : Opcode) : decodeWord (BitVec.ofNat 72 o.number) = .op o := by
  have h : decodeWord (BitVec.ofNat 72 (0 * 2 ^ 64 + _)) = .op o := decodeWord_ofNat (.op o) 0 nofun rfl
  rwa [toNat_opcodeNumber, Nat.zero_mul, Nat.zero_add] at h

theorem decodeWord_regNumber (r : Reg) :
    decodeWord (BitVec.ofNat 72 (0x01 * 2 ^ 64 + r.number)) = .operand (.reg r) := by
  have h := decodeWord_ofNat (.operand (.reg r)) 1 nofun rfl
  rwa [toNat_regNumber] at h

theorem decodeWord_charCode (c : CharCode) :
    decodeWord (BitVec.ofNat 72 (0x03 * 2 ^ 64 + c.toNat)) = .operand (.imm (.char c)) := by
  have h := decodeWord_ofNat (.operand (.imm (.char c))) 3 nofun rfl
  rwa [BitVec.toNat_setWidth_of_le (by decide)] at h

/-- Settles O8: the kind table and the first inverse from `decodeWord_encodeWord`, the `Invalid` patterns and the
second inverse by the kind of the pattern. -/
theorem wordDecodingIsInverseToEncoding : Obligations.WordDecodingIsInverseToEncoding := by
  refine ⟨decodeWord_opcodeNumber, decodeWord_regNumber,
    fun n => decodeWord_ofNat (.operand (.imm (.int n))) 2 nofun rfl, decodeWord_charCode, fun b => by cases b <;> rfl,
    fun d => decodeWord_ofNat (.operand (.off .bp d)) 5 nofun rfl,
    fun d => decodeWord_ofNat (.operand (.off .sp d)) 6 nofun rfl,
    fun n => decodeWord_ofNat (.operand (.addr .prog n)) 7 nofun rfl,
    fun n => decodeWord_ofNat (.operand (.addr .heap n)) 8 nofun rfl, fun b => ?_,
    fun _ => decodeWord_encodeWord, fun _ => encodeWord_decodeWord⟩
  rw [decodeWord_eq_invalid, kindOf_toNat, payloadOf_toNat]

end Sys2Proof
end

section
/-! PROOF. 30_encoding R100, R104, R115: an instruction and its words determine each other. `decodeInstr_eq_ok` says
once what the decoder answers: an opcode word, then as many words as the opcode has operands, then the rest. -/

namespace Sys2Proof

open Sys2Proof.Laws

/-! ## An instruction is its opcode and its operand words -/

theorem operandShape (i : Instr) : OperandShape.Statement i := by
  cases i with
  | nop => exact OperandShape.nop
  | mov a b => exact OperandShape.mov a b
  | push a => exact OperandShape.push a
  | pop a => exact OperandShape.pop a
  | alloc a => exact OperandShape.alloc a
  | store a b => exact OperandShape.store a b
  | load a b => exact OperandShape.load a b
  | call a => exact OperandShape.call a
  | ret => exact OperandShape.ret
  | add a b => exact OperandShape.add a b
  | sub a b => exact OperandShape.sub a b
  | jmp a => exact OperandShape.jmp a
  | je a => exact OperandShape.je a
  | jne a => exact OperandShape.jne a
  | eq a b => exact OperandShape.eq a b
  | ne a b => exact OperandShape.ne a b
  | lt a b => exact OperandShape.lt a b
  | le a b => exact OperandShape.le a b

theorem Instr.length_operands (i : Instr) : i.operands.length = i.opcode.arity := (operandShape i).1

theorem length_encode (i : Instr) : (encode i).length = 1 + i.opcode.arity := (operandShape i).2.1

theorem Instr.eq_of_opcode_operands {i j : Instr} (ho : i.opcode = j.opcode) (hw : i.operands = j.operands) :
    i = j := by
  obtain ⟨-, -, hi⟩ := operandShape i
  obtain ⟨-, -, hj⟩ := operandShape j
  rw [← hi, ← hj, ho, hw]

/-- Words the arity does not reach are ignored. -/
theorem Instr.operands_ofWords (o : Opcode) (a b : Word) :
    (Instr.ofWords o a b).operands = [a, b].take o.arity := by
  cases o <;> rfl

theorem Opcode.arity_le (o : Opcode) : o.arity ≤ 2 := by
  cases o <;> decide

/-! ## What the decoder answers -/

/-- The decoder reads two words ahead; the ones the opcode has are the first `arity` words. -/
theorem operands_ofWords_getD {o : Opcode} {ws : List RawWord} (h : o.arity ≤ ws.length) :
    (Instr.ofWords o (decodeWord (ws.getD 0 0)) (decodeWord (ws.getD 1 0))).operands =
      (ws.take o.arity).map decodeWord := by
  have hle := o.arity_le
  rw [Instr.operands_ofWords]
  match ws, harity : o.arity with
  | _, 0 => rfl
  | a :: _, 1 => rfl
  | a :: b :: _, 2 => rfl
  | [], n + 1 | [_], n + 2 | _, n + 3 => simp_all

theorem decodeInstr_eq_ok {ws rest : List RawWord} {i : Instr} :
    decodeInstr ws = .ok (i, rest) ↔
      ∃ w args, ws = w :: (args ++ rest) ∧ decodeWord w = .op i.opcode ∧ args.map decodeWord = i.operands := by
  constructor
  · intro h
    unfold decodeInstr at h
    split at h
    · cases h
    next w tail =>
      split at h
      next o ho =>
        split at h
        · cases h
        next hlen =>
          obtain ⟨rfl, rfl⟩ := Prod.mk.inj (Except.ok.inj h)
          exact ⟨w, tail.take o.arity, by rw [List.take_append_drop], by rw [ho, Instr.opcode_ofWords],
            (operands_ofWords_getD (by omega)).symm⟩
      · cases h
      · cases h
  · rintro ⟨w, args, rfl, hw, hargs⟩
    have hlen : i.opcode.arity = args.length := by rw [← i.length_operands, ← hargs, List.length_map]
    have hle : i.opcode.arity ≤ (args ++ rest).length := by rw [hlen, List.length_append]; omega
    have hi : Instr.ofWords i.opcode (decodeWord ((args ++ rest).getD 0 0)) (decodeWord ((args ++ rest).getD 1 0)) =
        i := by
      refine Instr.eq_of_opcode_operands (Instr.opcode_ofWords ..) ?_
      rw [operands_ofWords_getD hle, hlen, List.take_left, hargs]
    simp only [decodeInstr, hw]
    rw [if_neg (not_lt.mpr hle), hi, hlen, List.drop_left]

/-! ## Both directions -/

theorem ne_invalid_of_wellFormed {i : Instr} (h : i.wellFormed = true) {w : Word} (hw : w ∈ i.operands) :
    w ≠ .invalid := by
  rintro rfl
  exact absurd (List.all_eq_true.mp h _ hw) nofun

/-- Settles O9: every word of the encoding is read back, the operand words because none is `Invalid`. -/
theorem decodeOfEncodeIsTheInstruction : Obligations.DecodeOfEncodeIsTheInstruction := by
  unfold Obligations.DecodeOfEncodeIsTheInstruction
  intro i rest hwf
  refine decodeInstr_eq_ok.mpr ⟨_, _, rfl, decodeWord_encodeWord nofun, ?_⟩
  rw [List.map_map]
  refine (List.map_congr_left fun w hw => ?_).trans (List.map_id _)
  exact decodeWord_encodeWord (ne_invalid_of_wellFormed hwf hw)

/-- Settles O10: the words that decoded are the encodings of what they decoded to, none being `Invalid`. -/
theorem encodeOfDecodeIsTheWords : Obligations.EncodeOfDecodeIsTheWords := by
  unfold Obligations.EncodeOfDecodeIsTheWords
  intro ws rest i h hwf
  obtain ⟨w, args, rfl, hw, hargs⟩ := decodeInstr_eq_ok.mp h
  have hword : encodeWord (.op i.opcode) = w := by
    rw [← hw]
    exact encodeWord_decodeWord (by simp [hw])
  have hwords : i.operands.map encodeWord = args := by
    rw [← hargs, List.map_map]
    refine (List.map_congr_left fun a ha => ?_).trans (List.map_id args)
    refine encodeWord_decodeWord (ne_invalid_of_wellFormed hwf ?_)
    rw [← hargs]
    exact List.mem_map_of_mem ha
  have hws : w :: (args ++ rest) = encode i ++ rest := by rw [encode, hword, hwords, List.cons_append]
  exact ⟨hws, by rw [hws, List.length_append, length_encode]⟩

/-- Settles O11: the decoder, run on each of the seven encodings. -/
theorem writtenEncodingsDecode : Obligations.WrittenEncodingsDecode :=
  ⟨rfl, rfl, rfl, rfl, rfl, rfl, rfl⟩

theorem tableWords_opcodeNumber (o : Opcode) :
    tableWords 72 o.number = [BitVec.ofNat 72 o.number, 0, 0] := by
  cases o <;> rfl

/-- Settles O12: the first word of the row is its opcode word, the zero words after it are opcode words of NOP. -/
theorem opcodeTableRowsDecode : Obligations.OpcodeTableRowsDecode := by
  unfold Obligations.OpcodeTableRowsDecode
  intro o
  have hzero : decodeWord 0 = .op .nop := decodeWord_opcodeNumber .nop
  have hlen : ¬ [(0 : RawWord), 0].length < o.arity := not_lt.mpr o.arity_le
  simp only [decodeTableWord, tableWords_opcodeNumber, decodeInstr, decodeWord_opcodeNumber]
  rw [if_neg hlen]
  simp only [List.getD_cons_zero, List.getD_cons_succ, hzero]

end Sys2Proof
end

section
/-! SUPPORT. How an instruction ends with a fault that left the state as it was: before its effect function, at the
head all three formats share (40_engine_and_operands R140, R142, R143), or inside it. -/

namespace Sys2Proof.Machine

/-! ## The head of an instruction -/

/-- The shape tests of the operand words, in order (40_engine_and_operands R143). -/
def testWords (s : State) : List Word → Eff Unit
  | [] => .ok ()
  | [w1] => do
    let _ ← needOperand s w1 1
    .ok ()
  | w1 :: w2 :: _ => do
    let _ ← needOperand s w1 1
    let _ ← needOperand s w2 2
    .ok ()

/-- The tests every instruction makes before its effect function, whatever its format. `exec_of_head_error` ties
them to `exec`. -/
def head (s : State) (o : Opcode) (ws : List Word) : Eff Unit := do
  let _ ← currentPc s
  dispatchCheck s o
  testWords s ws

/-- A sequence that stops inside its first part, or inside its continuation, stops with any continuation that stops
there too. -/
theorem eff_bind_error_mono {α β γ : Type} {x : Eff α} {f : α → Eff β} {g : α → Eff γ} {e : Stop}
    (h : (x >>= f) = .error e) (hfg : ∀ a, f a = .error e → g a = .error e) : (x >>= g) = .error e := by
  rcases eff_bind_eq_error.mp h with h | ⟨a, ha, h⟩
  · exact eff_bind_eq_error.mpr (.inl h)
  · exact eff_bind_eq_error.mpr (.inr ⟨a, ha, hfg a h⟩)

section
variable {s : State} {p : Word64} {o : Opcode} {k : FaultKind} {j : Fin 3} {q : Option Reg}

theorem run0_of_head_error {e : Stop} (eff : Word64 → Effect) (h : head s o [] = .error e) :
    run0 o s eff = settle (some o) s e :=
  congrArg (conclude o s) <|
    eff_bind_error_mono h fun _ h => eff_bind_error_mono h nofun

theorem run1_of_head_error {e : Stop} {w1 : Word} (eff : Word64 → Operand → Effect)
    (h : head s o [w1] = .error e) : run1 o w1 s eff = settle (some o) s e :=
  congrArg (conclude o s) <|
    eff_bind_error_mono h fun _ h => eff_bind_error_mono h fun _ h => eff_bind_error_mono h nofun

theorem run2_of_head_error {e : Stop} {w1 w2 : Word} (eff : Word64 → Operand → Operand → Effect)
    (h : head s o [w1, w2] = .error e) : run2 o w1 w2 s eff = settle (some o) s e :=
  congrArg (conclude o s) <|
    eff_bind_error_mono h fun _ h => eff_bind_error_mono h fun _ h => eff_bind_error_mono h fun _ h =>
      eff_bind_error_mono h nofun

/-- An instruction whose head stops has no effect of its own. -/
theorem exec_of_head_error {i : Instr} {e : Stop} (h : head s i.opcode i.operands = .error e) :
    exec i s = settle (some i.opcode) s e := by
  cases i with
  | nop | ret => exact run0_of_head_error _ h
  | push o1 | pop o1 | alloc o1 | call o1 | jmp o1 | je o1 | jne o1 => exact run1_of_head_error _ h
  | mov o1 o2 | store o1 o2 | load o1 o2 | add o1 o2 | sub o1 o2 | eq o1 o2 | ne o1 o2 | lt o1 o2
  | le o1 o2 => exact run2_of_head_error _ h

theorem head_of_enabled {ws : List Word} (hp : s.atPc p) (he : s.enabled o) :
    head s o ws = testWords s ws := by
  have hd : dispatchCheck s o = .ok () := dispatchCheck_eq_ok.mpr he
  simp [head, currentPc_of_atPc hp, hd]

/-- The dispatch check comes before any operand word is looked at (40_engine_and_operands R142). -/
theorem head_of_disabled {ws : List Word} (hp : s.atPc p) (ho : isExtOpcode o = true)
    (he : s.cfg.ext = false) :
    head s o ws = .error (.raise .unimplementedOpcode 0 none s) := by
  have hd : dispatchCheck s o = .error (.raise .unimplementedOpcode 0 none s) :=
    dispatchCheck_eq_error.mpr ⟨⟨ho, he⟩, rfl⟩
  simp [head, currentPc_of_atPc hp, hd]

theorem needOperand_of_not_isOperand {w : Word} (h : w.isOperand = false) :
    needOperand s w j = .error (.raise .unsupportedWord j none s) := by
  cases w with
  | operand x => cases h
  | op o => rfl
  | invalid => rfl

theorem exists_operand_of_isOperand {w : Word} (h : w.isOperand = true) : ∃ x, w = .operand x := by
  cases w with
  | operand x => exact ⟨x, rfl⟩
  | op o => cases h
  | invalid => cases h

theorem testWords_of_bad_first {w1 : Word} {ws : List Word} (h : w1.isOperand = false) :
    testWords s (w1 :: ws) = .error (.raise .unsupportedWord 1 none s) := by
  cases ws <;> simp [testWords, needOperand_of_not_isOperand h]

theorem testWords_of_bad_second {w1 w2 : Word} {ws : List Word} (h1 : w1.isOperand = true)
    (h2 : w2.isOperand = false) :
    testWords s (w1 :: w2 :: ws) = .error (.raise .unsupportedWord 2 none s) := by
  obtain ⟨x, rfl⟩ := exists_operand_of_isOperand h1
  simp [testWords, needOperand_of_not_isOperand h2]

/-! ## A fault that left the state as it was -/

/-- The record of a fault raised in the state the step began in is all that changes (60_exceptions R257). -/
theorem settle_raise {d : Option Opcode} (hp : s.atPc p) :
    settle d s (.raise k j q s) = .next (s.withFault k p d j q) := by
  simp only [settle, faultPc_of_atPc hp]
  rfl

theorem exec_of_head_raise {i : Instr} (hp : s.atPc p)
    (h : head s i.opcode i.operands = .error (.raise k j q s)) :
    exec i s = .next (s.withFault k p (some i.opcode) j q) :=
  (exec_of_head_error h).trans (settle_raise hp)

theorem run1_of_raise {x : Operand} {eff : Word64 → Operand → Effect} (hp : s.atPc p) (he : s.enabled o)
    (h : eff p x = .error (.raise k j q s)) :
    run1 o (.operand x) s eff = .next (s.withFault k p (some o) j q) := by
  rw [run1_of_enabled x eff hp he, h]
  exact settle_raise hp

theorem run2_of_raise {x y : Operand} {eff : Word64 → Operand → Operand → Effect} (hp : s.atPc p)
    (he : s.enabled o) (h : eff p x y = .error (.raise k j q s)) :
    run2 o (.operand x) (.operand y) s eff = .next (s.withFault k p (some o) j q) := by
  rw [run2_of_enabled x y eff hp he, h]
  exact settle_raise hp

/-- Only the nine opcodes of 00_scope R5 can be disabled. -/
theorem enabled_of_not_ext (h : isExtOpcode o = false) : s.enabled o := fun h' =>
  absurd h' (by simp [h])

end

end Sys2Proof.Machine
end

section
/-! PROOF. 40_engine_and_operands R140 to R143: the step of a running engine, from the opcode word at PC to the
instruction it runs, the fault of the fetch, or the fault of the instruction's head. -/

namespace Sys2Proof

/-- Words after those that decoded only lengthen the rest (30_encoding R100). -/
theorem decodeInstr_append {ws rest : List RawWord} {i : Instr} (tail : List RawWord)
    (h : decodeInstr ws = .ok (i, rest)) : decodeInstr (ws ++ tail) = .ok (i, rest ++ tail) := by
  obtain ⟨w, args, rfl, hw, hargs⟩ := decodeInstr_eq_ok.mp h
  exact decodeInstr_eq_ok.mpr ⟨w, args, by simp, hw, hargs⟩

theorem decodeTableWord_eq_some {nbits w : Nat} {i : Instr} (h : decodeTableWord nbits w = some i) :
    ∃ rest, decodeInstr (tableWords nbits w) = .ok (i, rest) := by
  unfold decodeTableWord at h
  split at h
  · next i' rest hd =>
    cases h
    exact ⟨rest, hd⟩
  · cases h

end Sys2Proof

namespace Sys2Proof.Machine

section
variable {s : State} {p : Word64} {o : Opcode}

/-! ## The words at PC -/

theorem progWord_add (s : State) (n k : Nat) :
    s.progWord (n + k) = decodeWord ((s.prog.drop n).getD k 0) := by
  simp [State.progWord, List.getD_eq_getElem?_getD, List.getElem?_drop]

/-- Words that decode to an instruction: its opcode word at `n`, its operand words inside the program, and the
instruction is made of the words there. -/
theorem words_of_decodeInstr {n : Nat} {i : Instr} {rest : List RawWord}
    (h : decodeInstr (s.prog.drop n) = .ok (i, rest)) :
    s.progWord n = .op i.opcode ∧ n + i.opcode.arity < s.progLen ∧
      Instr.ofWords i.opcode (s.progWord (n + 1)) (s.progWord (n + 2)) = i := by
  obtain ⟨w, args, hdrop, hw, hargs⟩ := decodeInstr_eq_ok.mp h
  have hlen : args.length = i.opcode.arity := by rw [← i.length_operands, ← hargs, List.length_map]
  have htail : s.prog.drop (n + 1) = args ++ rest := by rw [← List.drop_drop, hdrop]; rfl
  refine ⟨?_, ?_, Instr.eq_of_opcode_operands (Instr.opcode_ofWords ..) ?_⟩
  · rw [← hw, ← Nat.add_zero n, progWord_add, hdrop]
    rfl
  · have hdl := congrArg List.length hdrop
    simp only [List.length_drop, List.length_cons, List.length_append] at hdl
    unfold State.progLen
    omega
  · have h1 := progWord_add s (n + 1) 0
    have h2 := progWord_add s (n + 1) 1
    rw [htail] at h1 h2
    rw [← hargs, h1, h2, operands_ofWords_getD (by rw [List.length_append]; omega), ← hlen, List.take_left]

/-! ## The fetch of a running engine -/

theorem fetch_eq_fetchAt (hf : s.fault = none) (hp : s.atPc p) (hlt : p.toInt < s.progLen) :
    fetch s = fetchAt s p := by
  simp [fetch, hf, currentPc_of_atPc hp, hlt]

theorem step_of_fetchAt_raise {d : Option Opcode} {k : FaultKind} {j : Fin 3} {q : Option Reg}
    (hf : s.fault = none) (hp : s.atPc p) (hlt : p.toInt < s.progLen)
    (h : fetchAt s p = .stop d (.raise k j q s)) : step s = .next (s.withFault k p d j q) := by
  simp only [step, fetch_eq_fetchAt hf hp hlt, h]
  exact settle_raise hp

theorem step_of_fetchAt_run {i : Instr} (hf : s.fault = none) (hp : s.atPc p) (hlt : p.toInt < s.progLen)
    (h : fetchAt s p = .run i) : step s = exec i s := by
  simp only [step, fetch_eq_fetchAt hf hp hlt, h]

theorem fetchAt_of_no_opcode (h : p.toInt < 0 ∨ ∀ o, s.progWord p.toInt.toNat ≠ .op o) :
    fetchAt s p = .stop none (.raise .unsupportedWord 0 none s) := by
  cases ho : fetchOpcode s p with
  | ok o =>
    obtain ⟨h0, hw⟩ := fetchOpcode_eq_ok.mp ho
    rcases h with h | h
    · omega
    · exact absurd hw (h o)
  | error e =>
    simp only [fetchAt, ho]
    rw [fetchOpcode_eq_error ho]

/-- The dispatch check comes before the truncation test (40_engine_and_operands R142). -/
theorem fetchAt_of_disabled (h0 : 0 ≤ p.toInt) (hw : s.progWord p.toInt.toNat = .op o)
    (ho : isExtOpcode o = true) (he : s.cfg.ext = false) :
    fetchAt s p = .stop (some o) (.raise .unimplementedOpcode 0 none s) := by
  have hq : fetchOpcode s p = .ok o := fetchOpcode_eq_ok.mpr ⟨h0, hw⟩
  have hd : dispatchCheck s o = .error (.raise .unimplementedOpcode 0 none s) :=
    dispatchCheck_eq_error.mpr ⟨⟨ho, he⟩, rfl⟩
  simp only [fetchAt, hq, hd]

theorem fetchAt_of_truncated (h0 : 0 ≤ p.toInt) (hw : s.progWord p.toInt.toNat = .op o) (he : s.enabled o)
    (hk : (s.progLen : Int) ≤ p.toInt + o.arity) :
    fetchAt s p = .stop (some o) (.raise .unsupportedWord 0 none s) := by
  have hq : fetchOpcode s p = .ok o := fetchOpcode_eq_ok.mpr ⟨h0, hw⟩
  have hd : dispatchCheck s o = .ok () := dispatchCheck_eq_ok.mpr he
  simp only [fetchAt, hq, hd, fetchOperands, if_pos hk, raise]

theorem fetchAt_of_complete (h0 : 0 ≤ p.toInt) (hw : s.progWord p.toInt.toNat = .op o) (he : s.enabled o)
    (hk : p.toInt + o.arity < s.progLen) :
    fetchAt s p = .run (Instr.ofWords o (s.progWord (p.toInt.toNat + 1)) (s.progWord (p.toInt.toNat + 2))) := by
  have hq : fetchOpcode s p = .ok o := fetchOpcode_eq_ok.mpr ⟨h0, hw⟩
  have hd : dispatchCheck s o = .ok () := dispatchCheck_eq_ok.mpr he
  simp only [fetchAt, hq, hd, fetchOperands, if_neg (not_le.mpr hk)]

/-- A fetched instruction whose operand words fail their shape tests ends there. -/
theorem step_of_testWords_raise {k : FaultKind} {j : Fin 3} {q : Option Reg} (hf : s.fault = none)
    (hp : s.atPc p) (h0 : 0 ≤ p.toInt) (hw : s.progWord p.toInt.toNat = .op o) (he : s.enabled o)
    (hk : p.toInt + o.arity < s.progLen)
    (h : testWords s ([s.progWord (p.toInt.toNat + 1), s.progWord (p.toInt.toNat + 2)].take o.arity) =
      .error (.raise k j q s)) :
    step s = .next (s.withFault k p (some o) j q) := by
  have hop := Instr.opcode_ofWords o (s.progWord (p.toInt.toNat + 1)) (s.progWord (p.toInt.toNat + 2))
  rw [step_of_fetchAt_run hf hp (by omega) (fetchAt_of_complete h0 hw he hk), exec_of_head_raise hp, hop]
  rw [hop, head_of_enabled hp he, Instr.operands_ofWords, h]

end

/-! ## The statements -/

/-- Settles O13: the fetch makes the instruction of the words it finds; for a disabled opcode the fetch and the head
of `exec` raise the same fault. -/
theorem stepRunsTheDecodedInstruction : Obligations.StepRunsTheDecodedInstruction := by
  unfold Obligations.StepRunsTheDecodedInstruction
  intro s p i rest hf hp h0 hd
  obtain ⟨hw, hlen, hi⟩ := words_of_decodeInstr hd
  by_cases he : s.enabled i.opcode
  · have hrun := fetchAt_of_complete h0 hw he (by omega)
    rw [hi] at hrun
    exact step_of_fetchAt_run hf hp (by omega) hrun
  · obtain ⟨ho, he⟩ : isExtOpcode i.opcode = true ∧ s.cfg.ext = false := by simpa [State.enabled] using he
    rw [exec_of_head_raise hp (head_of_disabled hp ho he)]
    exact step_of_fetchAt_raise hf hp (by omega) (fetchAt_of_disabled h0 hw ho he)

/-- Settles O14: after reset PC is 0, so the words are placed at the front of the program. -/
theorem placedWordsRunNext : Obligations.PlacedWordsRunNext := by
  unfold Obligations.PlacedWordsRunNext
  intro c prog nbits w i h
  obtain ⟨rest, hd⟩ := decodeTableWord_eq_some h
  have hprog : ((State.resetWith c prog).withFetchWord nbits w).prog =
      tableWords nbits w ++ prog.drop (tableWords nbits w).length := by
    simp [State.withFetchWord, State.withWordsAtPc, State.resetWith, State.reg, spliceAt]
  have hdec := decodeInstr_append (prog.drop (tableWords nbits w).length) hd
  rw [← hprog] at hdec
  exact stepRunsTheDecodedInstruction _ 0 i _ rfl rfl (by decide) hdec

/-- Settles O15: neither a negative PC nor a word that is no opcode gives the fetch an opcode. -/
theorem fetchFaultsOnANonOpcode : Obligations.FetchFaultsOnANonOpcode := by
  unfold Obligations.FetchFaultsOnANonOpcode
  intro s p hf hp hlt h
  exact step_of_fetchAt_raise hf hp hlt (fetchAt_of_no_opcode h)

/-- Settles O16: the fetch stops at the dispatch check, before it looks beyond the opcode word. -/
theorem disabledOpcodeFaultsAtDispatch : Obligations.DisabledOpcodeFaultsAtDispatch := by
  unfold Obligations.DisabledOpcodeFaultsAtDispatch
  intro s p o hf hp h0 hlt hw ho he
  exact step_of_fetchAt_raise hf hp hlt (fetchAt_of_disabled h0 hw ho he)

/-- Settles O18: the dispatch check stands in the head of every one of the nine, before their operand words. -/
theorem disabledInstructionsOnlyFault : Obligations.DisabledInstructionsOnlyFault := by
  unfold Obligations.DisabledInstructionsOnlyFault
  intro s p i hp ho he
  exact exec_of_head_raise hp (head_of_disabled hp ho he)

/-- Settles O17: the truncation test ends the fetch; the shape tests are those of the fetched instruction's head. -/
theorem operandWordFaults : Obligations.OperandWordFaults := by
  unfold Obligations.OperandWordFaults
  intro s p o hf hp h0 hlt hw he
  refine ⟨fun hk => ?_, fun hk ha h1 => ?_, fun hk ha h1 h2 => ?_⟩
  · exact step_of_fetchAt_raise hf hp hlt (fetchAt_of_truncated h0 hw he hk)
  · refine step_of_testWords_raise hf hp h0 hw he hk ?_
    obtain ⟨n, hn⟩ := Nat.exists_eq_add_of_le' ha
    rw [hn, List.take_succ_cons]
    exact testWords_of_bad_first h1
  · refine step_of_testWords_raise hf hp h0 hw he hk ?_
    rw [ha]
    exact testWords_of_bad_second h1 h2

end Sys2Proof.Machine
end

section
/-! PROOF. 40_engine_and_operands R151, R152, R160: what a value operand yields, and that an operand which does not
resolve ends its instruction with its own fault. -/

namespace Sys2Proof.Machine

section
variable {s : State} {p : Word64} {k : FaultKind} {j : Fin 3} {q : Option Reg}

/-! ## Value operands -/

theorem isValue_eq_false_iff (x : Operand) : isValue x = false ↔ ∃ a n, x = .addr a n := by
  cases x with
  | addr a n => simp [isValue]
  | reg r => simp [isValue]
  | imm v => simp [isValue]
  | off b d => simp [isValue]

/-- A word that is no value operand resolves to the fault of its shape test. -/
theorem value_of_not_isValue {x : Operand} (h : isValue x = false) :
    value s x j = .error (.raise .unsupportedOperand j none s) := by
  obtain ⟨a, n, rfl⟩ := (isValue_eq_false_iff x).mp h
  rfl

theorem stackIndex_of_outside {b : Base} {d n : Word64} (hb : s.reg (baseReg b) = some (.addr n))
    (h : n.toInt + d.toInt < 0 ∨ (s.cfg.stackSize : Int) ≤ n.toInt + d.toInt) :
    stackIndex s b d j = .error (.raise .stackOutOfBounds j none s) := by
  simp only [stackIndex, rdNum_of_addr j hb, eff_ok_bind, if_pos h, raise]

theorem stackIndex_of_inside {b : Base} {d n : Word64} {i : Nat} (hb : s.reg (baseReg b) = some (.addr n))
    (hi : n.toInt + d.toInt = i) (hlt : i < s.cfg.stackSize) : stackIndex s b d j = .ok i :=
  stackIndex_eq_ok.mpr ⟨n, rdNum_of_addr j hb, by omega, by omega, by omega⟩

/-- Settles O19: each form of the operand, an Offset through its stack index. -/
theorem valueOperandYields : Obligations.ValueOperandYields := by
  unfold Obligations.ValueOperandYields
  intro s j
  refine ⟨isValue_eq_false_iff, fun r v h => rd_eq_ok.mpr h, fun r h => rd_eq_error.mpr ⟨h, rfl⟩,
    fun _ => rfl, fun _ => rfl, fun _ => rfl, fun b d h => ?_, fun b d n h hout => ?_,
    fun b d n i h hi hlt => ⟨fun hv => ?_, fun v hv => ?_⟩, fun _ _ => rfl⟩
  · have hn := rdNum_eq_error (j := j).mpr (.inl ⟨h, rfl⟩)
    exact eff_bind_eq_error.mpr (.inl (eff_bind_eq_error.mpr (.inl hn)))
  · exact eff_bind_eq_error.mpr (.inl (stackIndex_of_outside h hout))
  · exact eff_bind_eq_error.mpr (.inr ⟨i, stackIndex_of_inside h hi hlt, needSlot_eq_error.mpr ⟨hv, rfl⟩⟩)
  · exact eff_bind_eq_ok.mpr ⟨i, stackIndex_of_inside h hi hlt, needSlot_eq_ok.mpr hv⟩

/-! ## Operands that do not resolve -/

/-- The shape test ahead of a resolution raises nothing the resolution would not raise: an effect function that
begins with the test stops with the operand's fault if the lines after it do. -/
theorem needValue_bind_eq_error {α : Type} {x : Operand} {e : Stop} {f : Unit → Eff α}
    (h : value s x j = .error e) (hf : isValue x = true → f () = .error e) :
    (needValue s x j >>= f) = .error e := by
  cases hx : isValue x with
  | true => exact eff_bind_eq_error.mpr (.inr ⟨(), needValue_eq_ok.mpr hx, hf hx⟩)
  | false =>
    rw [value_of_not_isValue hx] at h
    exact eff_bind_eq_error.mpr (.inl (needValue_eq_error.mpr ⟨hx, (Except.error.inj h).symm⟩))

theorem needValue_bind_value_eq_error {α : Type} {x : Operand} {e : Stop} {f : Storable → Eff α}
    (h : value s x j = .error e) : (do needValue s x j; let v ← value s x j; f v) = .error e :=
  needValue_bind_eq_error h fun _ => eff_bind_eq_error.mpr (.inl h)

theorem twoValues_of_first_error {x y : Operand} {e : Stop} (h : value s x 1 = .error e)
    (hy : isValue y = true) : twoValues s x y = .error e :=
  needValue_bind_eq_error h fun _ =>
    eff_bind_eq_error.mpr (.inr ⟨(), needValue_eq_ok.mpr hy, eff_bind_eq_error.mpr (.inl h)⟩)

theorem twoValues_of_second_error {x y : Operand} {v : Storable} {e : Stop} (hx : value s x 1 = .ok v)
    (h : value s y 2 = .error e) : twoValues s x y = .error e :=
  eff_bind_eq_error.mpr (.inr ⟨(), needValue_eq_ok.mpr (isValue_of_value hx),
    needValue_bind_eq_error h fun _ =>
      eff_bind_eq_error.mpr (.inr ⟨v, hx, eff_bind_eq_error.mpr (.inl h)⟩)⟩)

/-- The four compares resolve their operands the same way (45_compare R221 to R224). -/
theorem compares_of_twoValues_raise {x y : Operand} (hp : s.atPc p) (he : s.cfg.ext = true)
    (h : twoValues s x y = .error (.raise k j q s)) :
    exec (.eq (.operand x) (.operand y)) s = .next (s.withFault k p (some .eq) j q) ∧
    exec (.ne (.operand x) (.operand y)) s = .next (s.withFault k p (some .ne) j q) ∧
    exec (.lt (.operand x) (.operand y)) s = .next (s.withFault k p (some .lt) j q) ∧
    exec (.le (.operand x) (.operand y)) s = .next (s.withFault k p (some .le) j q) :=
  have hfirst : ∀ f : Storable × Storable → Effect, (twoValues s x y >>= f) = .error (.raise k j q s) :=
    fun _ => eff_bind_eq_error.mpr (.inl h)
  ⟨run2_of_raise hp (fun _ => he) (hfirst _), run2_of_raise hp (fun _ => he) (hfirst _),
    run2_of_raise hp (fun _ => he) (hfirst _), run2_of_raise hp (fun _ => he) (hfirst _)⟩

theorem push_of_value_raise {x : Operand} (hp : s.atPc p) (h : value s x 1 = .error (.raise k j q s)) :
    exec (.push (.operand x)) s = .next (s.withFault k p (some .push) j q) :=
  run1_of_raise hp (enabled_of_not_ext rfl) (needValue_bind_value_eq_error h)

theorem alloc_of_value_raise {x : Operand} (hp : s.atPc p) (h : value s x 1 = .error (.raise k j q s)) :
    exec (.alloc (.operand x)) s = .next (s.withFault k p (some .alloc) j q) :=
  run1_of_raise hp (enabled_of_not_ext rfl) (needValue_bind_value_eq_error h)

theorem mov_of_value_raise {r : Reg} {x : Operand} (hp : s.atPc p) (hr : r ≠ .zf)
    (h : value s x 2 = .error (.raise k j q s)) :
    exec (.mov (.operand (.reg r)) (.operand x)) s = .next (s.withFault k p (some .mov) j q) :=
  run2_of_raise hp (enabled_of_not_ext rfl) <| eff_bind_eq_error.mpr <|
    .inr ⟨r, dstReg_eq_ok.mpr ⟨rfl, hr⟩, needValue_bind_value_eq_error h⟩

/-- STORE resolves its first operand between the shape test of the second and its resolution (42_heap R182). -/
theorem store_of_value_raise {x y : Operand} {a : Nat} (hp : s.atPc p) (ha : heapAddr s x 1 = .ok a)
    (h : value s y 2 = .error (.raise k j q s)) :
    exec (.store (.operand x) (.operand y)) s = .next (s.withFault k p (some .store) j q) := by
  refine run2_of_raise hp (enabled_of_not_ext rfl) (eff_bind_eq_error.mpr (.inr ⟨(), ?_, ?_⟩))
  · exact needHeapAddr_eq_ok.mpr (isHeapAddr_of_heapAddr ha)
  · exact needValue_bind_eq_error h fun _ =>
      eff_bind_eq_error.mpr (.inr ⟨a, ha, eff_bind_eq_error.mpr (.inl h)⟩)

/-- Settles O20: nothing is written before the operands are resolved, so the fault leaves the state as it was. -/
theorem unresolvedValueOperandFaults : Obligations.UnresolvedValueOperandFaults := by
  unfold Obligations.UnresolvedValueOperandFaults
  intro s p x k q hp
  refine ⟨fun h => ⟨?_, ?_, fun he y hy => ?_⟩,
    fun h => ⟨fun r hr => ?_, fun y a ha => ?_, fun he y v hv => ?_⟩⟩
  · exact push_of_value_raise hp h
  · exact alloc_of_value_raise hp h
  · exact compares_of_twoValues_raise hp he (twoValues_of_first_error h hy)
  · exact mov_of_value_raise hp hr h
  · exact store_of_value_raise hp ha h
  · exact compares_of_twoValues_raise hp he (twoValues_of_second_error hv h)

/-! ## Destinations -/

theorem dstReg_of_not_destination {x : Operand} (h : ∀ r, x = .reg r → r = .zf) :
    dstReg s x j = .error (.raise .unsupportedOperand j none s) := by
  cases hd : dstReg s x j with
  | ok r =>
    obtain ⟨hx, hr⟩ := dstReg_eq_ok.mp hd
    exact absurd (h r hx) hr
  | error e => rw [dstReg_eq_error hd]

end

/-- Settles O23: the destination is the first thing each of the five effect functions looks at. -/
theorem badDestinationFaults : Obligations.BadDestinationFaults := by
  unfold Obligations.BadDestinationFaults
  intro s p x y hp hx
  have hfirst (f : Reg → Effect) :
      (dstReg s x 1 >>= f) = .error (.raise .unsupportedOperand 1 none s) :=
    eff_bind_eq_error.mpr (.inl (dstReg_of_not_destination hx))
  refine ⟨?pop, ?mov, ?load, ?add, ?sub⟩
  case pop => exact run1_of_raise hp (enabled_of_not_ext rfl) (hfirst _)
  case mov | load | add | sub => exact run2_of_raise hp (enabled_of_not_ext rfl) (hfirst _)

/-- Settles O24: the effect function leaves the state, and the advance is by the one word of the instruction. -/
theorem nopOnlyAdvances : Obligations.NopOnlyAdvances := by
  unfold Obligations.NopOnlyAdvances
  intro s p hp
  calc exec .nop s
      = conclude .nop s (.ok (false, s)) := run0_of_enabled _ hp (enabled_of_not_ext rfl)
    _ = .next (s.pcAt (p.toInt + 1 + Opcode.nop.arity)) := conclude_advances hp rfl
    _ = .next (s.pcAt (p.toInt + 1)) := by simp [Opcode.arity]

end Sys2Proof.Machine
end

section
/-! PROOF. 40_engine_and_operands R140, 70_reset_and_hazards R302: a step from a state that meets the invariant
answers a next state, and so does any number of steps from reset. -/

namespace Sys2Proof.Machine

theorem run_succ_of_step {M : Host.Core} {s t : M.State} {k : Nat} (h : M.step s = .next t) :
    M.run (k + 1) s = M.run k t := by
  simp only [Host.Core.run, h]

section
variable {i : Instr} {s : State}

/-- The model's own stop is of no state that meets the invariant (log 5). -/
theorem StopsWith.not_runInv {o : Opcode} {f : Fault} (h : StopsWith o s (.stuck f)) : ¬ RunInv s := by
  rcases h with ⟨-, -, h⟩ | ⟨k, j, q, h, -⟩ | ⟨n, k, -, -, ⟨-, h⟩ | ⟨-, a, m, -, -, h⟩⟩ | ⟨-, -, v, h⟩
  · exact h
  all_goals cases h

/-- The invariant rules out the model's own stop, and gives PC an Address for the advance. -/
theorem RunInv.exec_completes (hs : RunInv s) (i : Instr) : ∃ t, exec i s = .next t := by
  obtain ⟨c, hc, hsucc, hstop⟩ := exec_shape i s
  rw [hc]
  match c with
  | .ok (true, u) => exact ⟨u, rfl⟩
  | .ok (false, u) =>
    obtain ⟨n, hn⟩ := addr_of_holdsAddr ((hsucc false u rfl).edits.leaves.allowed_reg hs .pc)
    exact ⟨_, conclude_advances hn rfl⟩
  | .error (.raise k j q left) => exact ⟨_, rfl⟩
  | .error (.stuck f) => exact absurd hs (hstop _ rfl).not_runInv

/-- A fetch under the invariant stops with a fault of the hardware only. -/
theorem RunInv.completes (hs : RunInv s) : Completes s := by
  unfold Completes step
  cases h : fetch s with
  | idle => exact ⟨s, rfl⟩
  | run i => exact hs.exec_completes i
  | stop o e =>
    obtain ⟨-, ⟨-, hpc⟩ | ⟨p, k, j, -, -, rfl, -⟩⟩ := fetch_eq_stop h
    · obtain ⟨n, hn⟩ := hs.pc_eq
      rw [currentPc_of_atPc hn] at hpc
      cases hpc
    · exact ⟨_, rfl⟩

/-- Any number of steps from a state that meets the invariant: each completes, keeps the invariant and writes no
constant. -/
theorem RunInv.run_completes (hs : RunInv s) (k : Nat) :
    ∃ t : State, core.run k s = .next t ∧ RunInv t ∧ t.cfg = s.cfg ∧ t.prog = s.prog := by
  induction k generalizing s with
  | zero => exact ⟨s, rfl, hs, rfl, rfl⟩
  | succ k ih =>
    obtain ⟨u, hu⟩ := hs.completes
    obtain ⟨hcfg, hprog⟩ := hostConstantsStay s u hu
    obtain ⟨t, ht, hinv, htc, htp⟩ := ih (stepKeepsTheInvariant s u hs hu)
    exact ⟨t, (run_succ_of_step hu).trans ht, hinv, htc.trans hcfg, htp.trans hprog⟩

end

/-- Settles O55: reset meets the invariant, and the run keeps it. -/
theorem stepsFromResetComplete : Obligations.StepsFromResetComplete := by
  unfold Obligations.StepsFromResetComplete
  intro c prog k hc hp
  exact (runInv_resetWith hc hp).run_completes k

end Sys2Proof.Machine
end

section
/-! PROOF. 41_stack R170 to R174: PUSH, POP and the stack faults of RET, each from what the stack primitive answers
at the number SP holds. -/

namespace Sys2Proof.Machine

section
variable {s t : State} {p n : Word64} {o : Opcode} {k : FaultKind} {v : Storable} {r : Reg}

/-! ## The stack primitives, by the number SP holds -/

/-- The decrement wraps at the least number only. -/
theorem toInt_wrapW_pred (h : -2 ^ 63 < n.toInt) : (wrapW (n.toInt - 1)).toInt = n.toInt - 1 := by
  have hlt := toInt_lt n
  exact toInt_wrapW _ (by omega) (by omega)

theorem push_of_room (hn : s.atSp n) (h1 : 1 ≤ n.toInt) (h2 : n.toInt ≤ s.cfg.stackSize) :
    push s v =
      .ok ((s.setReg .sp (some (.addr (wrapW (n.toInt - 1))))).writeStack (n.toInt - 1).toNat (some v)) := by
  have hk : (wrapW (n.toInt - 1)).toInt = n.toInt - 1 := toInt_wrapW_pred (by omega)
  refine push_eq_ok.mpr ⟨n, rdNum_of_addr 0 hn, ?_, ?_, ?_⟩ <;> rw [hk]
  · omega
  · omega

/-- SP is decremented before the test (41_stack R170). -/
theorem push_of_overflow (hn : s.atSp n) (h1 : n.toInt ≤ 0) (h2 : -2 ^ 63 < n.toInt) :
    push s v =
      .error (.raise .stackOverflow 0 none (s.setReg .sp (some (.addr (wrapW (n.toInt - 1)))))) := by
  have hk : (wrapW (n.toInt - 1)).toInt = n.toInt - 1 := toInt_wrapW_pred h2
  rw [push_of_sp v (rdNum_of_addr 0 hn), if_pos (by omega), raise]

/-- From the least number the decrement wraps to the greatest, which no legal stack has a slot for. -/
theorem push_of_outside (hn : s.atSp n) (hc : s.cfg.stackSize < 2 ^ 63)
    (h : (s.cfg.stackSize : Int) < n.toInt ∨ n.toInt = -2 ^ 63) :
    push s v =
      .error (.raise .stackOutOfBounds 0 none (s.setReg .sp (some (.addr (wrapW (n.toInt - 1)))))) := by
  have hk : (s.cfg.stackSize : Int) ≤ (wrapW (n.toInt - 1)).toInt := by
    rcases h with h | h
    · rw [toInt_wrapW_pred (by omega)]
      omega
    · have hwrap : (wrapW (-2 ^ 63 - 1)).toInt = 2 ^ 63 - 1 := by decide
      rw [h, hwrap]
      omega
  rw [push_of_sp v (rdNum_of_addr 0 hn), if_neg (by omega), if_pos hk, raise]

theorem popRead_of_slot {i : Nat} (hn : s.atSp n) (hi : n.toInt = i) (hlt : i < s.cfg.stackSize)
    (hv : memRead s.stack i = some v) : popRead s = .ok (n, v) :=
  popRead_eq_ok.mpr ⟨rdNum_of_addr 0 hn, by omega, by omega, by rwa [hi]⟩

/-- The three ways 41_stack R171 gives a pop to fail. -/
theorem popRead_raise (hn : s.atSp n)
    (h : ((s.cfg.stackSize : Int) ≤ n.toInt ∧ k = .stackUnderflow) ∨
      (n.toInt < 0 ∧ k = .stackOutOfBounds) ∨
      (∃ i : Nat, n.toInt = i ∧ i < s.cfg.stackSize ∧ memRead s.stack i = none ∧ k = .emptySlot)) :
    popRead s = .error (.raise k 0 none s) := by
  simp only [popRead, rdNum_of_addr 0 hn, eff_ok_bind]
  rcases h with ⟨hge, rfl⟩ | ⟨hneg, rfl⟩ | ⟨i, hi, hlt, hv, rfl⟩
  · rw [if_pos hge, raise]
  · rw [if_neg (by omega), if_pos hneg, raise]
  · rw [if_neg (by omega), if_neg (by omega), hi, Int.toNat_natCast, hv, raise]

/-! ## The ends of an instruction -/

theorem reg_pcAt (z : Int) (q : Reg) :
    (s.pcAt z).reg q = if q = .pc then some (.addr (wrapW z)) else s.reg q :=
  reg_setReg s .pc q _

@[simp] theorem stack_pcAt (z : Int) : (s.pcAt z).stack = s.stack := stack_setReg s .pc _

@[simp] theorem cfg_pcAt (z : Int) : (s.pcAt z).cfg = s.cfg := cfg_setReg s .pc _

/-- The advance, with the number PC moves to given by its sum. -/
theorem conclude_pcAt {z : Int} (h : t.reg .pc = some (.addr p)) (hz : p.toInt + 1 + o.arity = z) :
    conclude o s (.ok (false, t)) = .next (t.pcAt z) :=
  hz ▸ conclude_advances h rfl

theorem run0_of_raise {j : Fin 3} {q : Option Reg} {eff : Word64 → Effect} (hp : s.atPc p) (he : s.enabled o)
    (h : eff p = .error (.raise k j q s)) : run0 o s eff = .next (s.withFault k p (some o) j q) := by
  rw [run0_of_enabled eff hp he, h]
  exact settle_raise hp

/-! ## PUSH -/

/-- Once its operand is resolved, PUSH is the stack primitive. -/
theorem exec_push_of_value {x : Operand} (hp : s.atPc p) (hv : value s x 1 = .ok v) :
    exec (.push (.operand x)) s = conclude .push s (do let t ← push s v; .ok (false, t)) := by
  have hx : needValue s x 1 = .ok () := needValue_eq_ok.mpr (isValue_of_value hv)
  calc exec (.push (.operand x)) s
      = conclude .push s (do needValue s x 1; let v ← value s x 1; let t ← push s v; .ok (false, t)) :=
        run1_of_enabled x _ hp (enabled_of_not_ext rfl)
    _ = _ := by rw [hx, hv]; rfl

/-- A push that fails leaves the state with SP already decremented, and the fault is taken there. -/
theorem exec_push_of_push_error {x : Operand} (hp : s.atPc p) (hv : value s x 1 = .ok v)
    (h : push s v = .error (.raise k 0 none t)) :
    exec (.push (.operand x)) s = .next (t.withFault k p (some .push) 0 none) := by
  rw [exec_push_of_value hp hv, h]
  exact conclude_raise k 0 none hp

/-! ## POP -/

/-- Once the slot at SP is read, POP fits its content to the destination, commits, and writes the destination. -/
theorem exec_pop_of_popRead (hp : s.atPc p) (hr : r ≠ .zf) (hv : popRead s = .ok (n, v)) :
    exec (.pop (.operand (.reg r))) s =
      conclude .pop s (do let u ← coerce s r v 1; .ok (false, (popCommit s n).setReg r (some u))) := by
  have hd : dstReg s (.reg r) 1 = .ok r := dstReg_eq_ok.mpr ⟨rfl, hr⟩
  calc exec (.pop (.operand (.reg r))) s
      = conclude .pop s (do
          let r ← dstReg s (.reg r) 1
          let (n, v) ← popRead s
          let u ← coerce s r v 1
          .ok (false, (popCommit s n).setReg r (some u))) :=
        run1_of_enabled _ _ hp (enabled_of_not_ext rfl)
    _ = _ := by rw [hd, hv]; rfl

/-- PC after a pop, before the advance: what a destination PC was given, and otherwise what it was. -/
theorem pc_setReg_popCommit {w : Storable} (hp : s.reg .pc = some (.addr p)) :
    ((popCommit s n).setReg r (some w)).reg .pc = some (if r = .pc then w else .addr p) := by
  simp only [reg_setReg, reg_popCommit, hp, reduceCtorEq, if_false, eq_comm (a := Reg.pc)]
  split <;> rfl

/-- A pop whose content fits the destination; `q` is the number PC holds before the advance. -/
theorem exec_pop_of_coerce {q : Word64} {w : Storable} (hp : s.atPc p) (hr : r ≠ .zf)
    (hv : popRead s = .ok (n, v)) (hw : coerce s r v 1 = .ok w)
    (hq : (if r = .pc then w else .addr p) = .addr q) :
    exec (.pop (.operand (.reg r))) s =
      .next (((popCommit s n).setReg r (some w)).pcAt (q.toInt + 2)) := by
  rw [exec_pop_of_popRead hp hr hv, hw]
  exact conclude_pcAt (by rw [pc_setReg_popCommit hp, hq]) (by simp only [Opcode.arity]; omega)

/-- A slot that was filled and then cleared is `empty`, and no other slot tells the difference. -/
theorem memRead_memWrite_clear {m : Memory} (i a : Nat) (v : Slot) (hw : Memory.wf m = true) :
    memRead (memWrite (memWrite m i v) i none) a = if a = i then none else memRead m a := by
  rw [memRead_memWrite i none a (Memory.wf_memWrite i v hw), memRead_memWrite i v a hw]
  split <;> rfl

end

/-! ## The statements -/

/-- Settles O26: the three outcomes of the stack primitive; a push leaves PC where it was. -/
theorem pushOutcomes : Obligations.PushOutcomes := by
  unfold Obligations.PushOutcomes
  intro s p n x v hp hn hc hv
  obtain ⟨⟨-, hss, -⟩, -⟩ := (config_valid_iff _).mp hc
  refine ⟨fun h1 h2 => ?room, fun h1 h2 => ?overflow, fun h => ?outside⟩
  case room =>
    rw [exec_push_of_value hp hv, push_of_room hn h1 h2]
    refine conclude_pcAt (p := p) ?_ (by simp only [Opcode.arity]; omega)
    rw [reg_writeStack, reg_setReg_of_ne s _ (by decide)]
    exact hp
  case overflow => exact exec_push_of_push_error hp hv (push_of_overflow hn h1 h2)
  case outside => exact exec_push_of_push_error hp hv (push_of_outside hn hss h)

/-- Settles O27: the destination takes what `coerce` makes of the content (40_engine_and_operands R153). -/
theorem popResults : Obligations.PopResults := by
  unfold Obligations.PopResults
  intro s p n i r v hp hn hi hlt hc hv hr t
  have hread : popRead s = .ok (n, v) := popRead_of_slot hn hi hlt hv
  have ht : popCommit s n = t := by simp only [popCommit, hi, Int.toNat_natCast, t]
  refine ⟨fun hg => ?general, fun m hs hm => ?number, fun hs hm => ?neither⟩
  case general =>
    have hw : coerce s r v 1 = .ok v := coerce_eq_ok.mpr (by simp [hg])
    have hrpc : r ≠ .pc := by rintro rfl; cases hg
    rw [← ht]
    exact exec_pop_of_coerce hp hr hread hw (if_neg hrpc)
  case number =>
    have hnum : numBits v = some m := by rcases hm with rfl | rfl <;> rfl
    have hw : coerce s r v 1 = .ok (.addr m) := coerce_eq_ok.mpr (by simp [hs, hnum])
    rw [← ht, ← apply_ite BitVec.toInt]
    exact exec_pop_of_coerce hp hr hread hw (apply_ite Storable.addr _ _ _).symm
  case neither =>
    have hnum : numBits v = none := by rcases hm with ⟨c, rfl⟩ | ⟨b, rfl⟩ <;> rfl
    have hw : coerce s r v 1 = .error (.raise .typeMismatch 1 (some r) s) := by
      simp [coerce, hs, hnum]
    rw [exec_pop_of_popRead hp hr hread, hw]
    exact conclude_raise .typeMismatch 1 (some r) hp

/-- Settles O28: both instructions read the slot at SP before they write anything. -/
theorem popAndRetStackFaults : Obligations.PopAndRetStackFaults := by
  unfold Obligations.PopAndRetStackFaults
  intro s p n r k hp hn hr h
  have hread : popRead s = .error (.raise k 0 none s) := popRead_raise hn h
  refine ⟨run1_of_raise hp (enabled_of_not_ext rfl) ?_, fun he => run0_of_raise hp (fun _ => he) ?_⟩
  · rw [dstReg_eq_ok.mpr ⟨rfl, hr⟩, eff_ok_bind, hread, eff_error_bind]
  · rw [hread, eff_error_bind]

/-- Settles O56: the push leaves SP at the slot it wrote, and the pop reads, clears and leaves that slot. -/
theorem pushThenPopReturnsTheValue : Obligations.PushThenPopReturnsTheValue := by
  unfold Obligations.PushThenPopReturnsTheValue
  intro s p n x v r hp hn hc hwf hv h1 h2 hg hr
  obtain ⟨i, hi⟩ : ∃ i : Nat, n.toInt = i + 1 := ⟨(n.toInt - 1).toNat, by omega⟩
  have hpred : (wrapW (n.toInt - 1)).toInt = i := by rw [toInt_wrapW_pred (by omega)]; omega
  have hslot : (n.toInt - 1).toNat = i := by omega
  have hrsp : r ≠ .sp := by rintro rfl; cases hg
  have hrpc : r ≠ .pc := by rintro rfl; cases hg
  have hpush := (pushOutcomes s p n x v hp hn hc hv).1 h1 h2
  set t := ((s.setReg .sp (some (.addr (wrapW (n.toInt - 1))))).writeStack (n.toInt - 1).toNat
    (some v)).pcAt (p.toInt + 2) with ht
  have htpc : t.atPc (wrapW (p.toInt + 2)) := by simp [ht, State.atPc, reg_pcAt]
  have htsp : t.atSp (wrapW (n.toInt - 1)) := by simp [ht, State.atSp, reg_pcAt]
  have htcfg : t.cfg = s.cfg := by simp [ht]
  have htstack : t.stack = memWrite s.stack i (some v) := by simp [ht, hslot]
  have htop : memRead t.stack i = some v := by rw [htstack, memRead_memWrite i _ i hwf, if_pos rfl]
  have hpop := (popResults t _ _ i r v htpc htsp hpred (by rw [htcfg]; omega) (by rwa [htcfg]) htop hr).1 hg
  have hback : wrapW ((wrapW (n.toInt - 1)).toInt + 1) = n := by rw [hpred, ← hi, wrapW_toInt]
  refine ⟨t, _, hpush, hpop, ?value, ?sp, ?slot, fun a ha => ?others⟩
  case value => rw [reg_pcAt, if_neg hrpc, reg_setReg_self]
  case sp =>
    rw [reg_pcAt, if_neg (by decide), reg_setReg_of_ne _ _ hrsp.symm, reg_setReg_self, hback]
    exact hn.symm
  case slot => simp [htstack, hslot, memRead_memWrite_clear i i _ hwf]
  case others =>
    have hne : a ≠ i := by omega
    simp [htstack, memRead_memWrite_clear i a _ hwf, hne]

end Sys2Proof.Machine
end

section
/-! PROOF. 42_heap R180 to R185: what a heap address operand names, and ALLOC, STORE and LOAD, each from what its
resolved operands and the stack primitive answer. -/

namespace Sys2Proof.Machine

section
variable {s t : State} {p n h : Word64} {a : Nat} {j : Fin 3} {k : FaultKind} {q : Option Reg} {x y : Operand}
  {v w : Storable} {r : Reg}

/-! ## Heap address operands -/

theorem isHeapAddr_iff (x : Operand) :
    isHeapAddr x = true ↔ (∃ r, x = .reg r) ∨ ∃ n, x = .addr .heap n := by
  cases x with
  | addr sp n => cases sp <;> simp [isHeapAddr]
  | reg r => simp [isHeapAddr]
  | imm v => simp [isHeapAddr]
  | off b d => simp [isHeapAddr]

/-- A word that is no heap address operand resolves to the fault of its shape test. -/
theorem heapAddr_of_not_isHeapAddr (hx : isHeapAddr x = false) :
    heapAddr s x j = .error (.raise .unsupportedOperand j none s) := by
  cases x with
  | addr sp n =>
    cases sp with
    | prog => rfl
    | heap => cases hx
  | reg r => cases hx
  | imm v => rfl
  | off b d => rfl

/-- A register and a heap address word that give the same Address name the same location. -/
theorem heapAddr_of_names {m : Word64} (hx : x = .addr .heap m ∨ ∃ r, x = .reg r ∧ s.reg r = some (.addr m)) :
    heapAddr s x j = heapIndex s m j := by
  rcases hx with rfl | ⟨r, rfl, hr⟩
  · rfl
  · simp [heapAddr, rd_eq_ok.mpr hr, needAddr]

theorem needAddr_of_not_addr (hv : ∀ m, v ≠ .addr m) :
    needAddr s r v j = .error (.raise .typeMismatch j (some r) s) := by
  cases hn : needAddr s r v j with
  | ok m => exact absurd (needAddr_eq_ok.mp hn) (hv m)
  | error e => rw [needAddr_eq_error hn]

theorem heapIndex_of_outside {m : Word64} (hm : m.toInt < 0 ∨ (s.cfg.heapSize : Int) ≤ m.toInt) :
    heapIndex s m j = .error (.raise .heapOutOfBounds j none s) := by
  rw [heapIndex, if_pos hm, raise]

/-- Settles O21: a register is read first and its content must be an Address; the bounds test is the same for a
register and a word. -/
theorem heapAddressOperandYields : Obligations.HeapAddressOperandYields := by
  unfold Obligations.HeapAddressOperandYields
  intro s j
  refine ⟨isHeapAddr_iff, fun r hr => ?empty, fun r v hr hv => ?noAddr,
    fun x m hx => ⟨fun hm => ?outside, fun i hi hlt => ?inside⟩, fun _ => rfl, fun _ => rfl, fun _ _ => rfl⟩
  case empty => exact eff_bind_eq_error.mpr (.inl (rd_eq_error.mpr ⟨hr, rfl⟩))
  case noAddr =>
    have hread : rd s r j = .ok v := rd_eq_ok.mpr hr
    exact eff_bind_eq_error.mpr (.inr ⟨v, hread, eff_bind_eq_error.mpr (.inl (needAddr_of_not_addr hv))⟩)
  case outside => rw [heapAddr_of_names hx, heapIndex_of_outside hm]
  case inside =>
    rw [heapAddr_of_names hx]
    exact heapIndex_eq_ok.mpr ⟨by omega, by omega, by omega⟩

/-- The shape test ahead of a resolution raises nothing the resolution would not raise. -/
theorem needHeapAddr_bind_eq_error {α : Type} {e : Stop} {f : Unit → Eff α}
    (he : heapAddr s x j = .error e) (hf : isHeapAddr x = true → f () = .error e) :
    (needHeapAddr s x j >>= f) = .error e := by
  cases hx : isHeapAddr x with
  | true => exact eff_bind_eq_error.mpr (.inr ⟨(), needHeapAddr_eq_ok.mpr hx, hf hx⟩)
  | false =>
    rw [heapAddr_of_not_isHeapAddr hx] at he
    exact eff_bind_eq_error.mpr (.inl (needHeapAddr_eq_error.mpr ⟨hx, (Except.error.inj he).symm⟩))

/-- Settles O22: the lines before the one that stops only test shapes and the destination. -/
theorem unresolvedHeapAddressFaults : Obligations.UnresolvedHeapAddressFaults := by
  unfold Obligations.UnresolvedHeapAddressFaults
  intro s p x k q hp
  refine ⟨fun y hy h => ?store, fun r hr h => ?load, fun y hx hy => ?shape⟩
  case store =>
    have hshape : needValue s y 2 = .ok () := needValue_eq_ok.mpr hy
    refine run2_of_raise hp (enabled_of_not_ext rfl) (needHeapAddr_bind_eq_error h fun _ => ?_)
    rw [hshape, eff_ok_bind, h, eff_error_bind]
  case load =>
    have hdst : dstReg s (.reg r) 1 = .ok r := dstReg_eq_ok.mpr ⟨rfl, hr⟩
    refine run2_of_raise hp (enabled_of_not_ext rfl) (eff_bind_eq_error.mpr (.inr ⟨r, hdst, ?_⟩))
    exact needHeapAddr_bind_eq_error h fun _ => eff_bind_eq_error.mpr (.inl h)
  case shape =>
    have hfirst : needHeapAddr s x 1 = .ok () := needHeapAddr_eq_ok.mpr hx
    have hsecond : needValue s y 2 = .error (.raise .unsupportedOperand 2 none s) :=
      needValue_eq_error.mpr ⟨hy, rfl⟩
    refine run2_of_raise hp (enabled_of_not_ext rfl) ?_
    rw [hfirst, eff_ok_bind, hsecond, eff_error_bind]

/-! ## What fits a destination (40_engine_and_operands R153) -/

theorem coerce_of_general (hr : isSpecial r = false) : coerce s r v j = .ok v :=
  coerce_eq_ok.mpr (by simp [hr])

theorem coerce_of_number {m : Word64} (hr : isSpecial r = true) (hv : v = .int m ∨ v = .addr m) :
    coerce s r v j = .ok (.addr m) := by
  have hnum : numBits v = some m := by rcases hv with rfl | rfl <;> rfl
  exact coerce_eq_ok.mpr (by simp [hr, hnum])

theorem coerce_of_no_number (hr : isSpecial r = true) (hv : (∃ c, v = .char c) ∨ (∃ b, v = .bool b)) :
    coerce s r v j = .error (.raise .typeMismatch j (some r) s) := by
  have hnum : numBits v = none := by rcases hv with ⟨c, rfl⟩ | ⟨b, rfl⟩ <;> rfl
  simp [coerce, hr, hnum]

/-! ## STORE -/

@[simp] theorem heap_pcAt (z : Int) : (s.pcAt z).heap = s.heap := heap_setReg s .pc _

/-- Once both operands are resolved, STORE is one heap write and the advance. -/
theorem exec_store_of_operands (hp : s.atPc p) (ha : heapAddr s x 1 = .ok a) (hv : value s y 2 = .ok v) :
    exec (.store (.operand x) (.operand y)) s = .next ((s.writeHeap a (some v)).pcAt (p.toInt + 3)) := by
  have hx : needHeapAddr s x 1 = .ok () := needHeapAddr_eq_ok.mpr (isHeapAddr_of_heapAddr ha)
  have hy : needValue s y 2 = .ok () := needValue_eq_ok.mpr (isValue_of_value hv)
  have hpc : (s.writeHeap a (some v)).reg .pc = some (.addr p) := (reg_writeHeap s a _ .pc).trans hp
  calc exec (.store (.operand x) (.operand y)) s
      = conclude .store s (do
          needHeapAddr s x 1
          needValue s y 2
          let a ← heapAddr s x 1
          let v ← value s y 2
          .ok (false, s.writeHeap a (some v))) := run2_of_enabled x y _ hp (enabled_of_not_ext rfl)
    _ = conclude .store s (.ok (false, s.writeHeap a (some v))) := by rw [hx, hy, ha, hv]; rfl
    _ = _ := conclude_pcAt hpc (by simp only [Opcode.arity]; omega)

/-- Settles O31: one heap write, whose slot a canonical heap reads back. -/
theorem storeResult : Obligations.StoreResult := by
  unfold Obligations.StoreResult
  intro s p x y a v hp ha hv hwf
  exact ⟨exec_store_of_operands hp ha hv, by rw [memRead_memWrite a _ a hwf, if_pos rfl]⟩

/-! ## LOAD -/

/-- Once the location is named, LOAD fits its content to the destination and writes it. -/
theorem exec_load_of_heapAddr (hp : s.atPc p) (hr : r ≠ .zf) (ha : heapAddr s y 2 = .ok a) :
    exec (.load (.operand (.reg r)) (.operand y)) s =
      conclude .load s (do
        let v ← needSlot s (memRead s.heap a) 2
        let u ← coerce s r v 1
        .ok (false, s.setReg r (some u))) := by
  have hd : dstReg s (.reg r) 1 = .ok r := dstReg_eq_ok.mpr ⟨rfl, hr⟩
  have hy : needHeapAddr s y 2 = .ok () := needHeapAddr_eq_ok.mpr (isHeapAddr_of_heapAddr ha)
  calc exec (.load (.operand (.reg r)) (.operand y)) s
      = conclude .load s (do
          let r ← dstReg s (.reg r) 1
          needHeapAddr s y 2
          let a ← heapAddr s y 2
          let v ← needSlot s (memRead s.heap a) 2
          let u ← coerce s r v 1
          .ok (false, s.setReg r (some u))) := run2_of_enabled _ y _ hp (enabled_of_not_ext rfl)
    _ = _ := by rw [hd, hy, ha]; rfl

/-- The same, with a content in the slot. -/
theorem exec_load_of_slot (hp : s.atPc p) (hr : r ≠ .zf) (ha : heapAddr s y 2 = .ok a)
    (hv : memRead s.heap a = some v) :
    exec (.load (.operand (.reg r)) (.operand y)) s =
      conclude .load s (do let u ← coerce s r v 1; .ok (false, s.setReg r (some u))) := by
  rw [exec_load_of_heapAddr hp hr ha, needSlot_eq_ok.mpr hv, eff_ok_bind]

/-- PC after a destination is written, before the advance: what a destination PC was given, and otherwise what it
was. -/
theorem pc_setReg (hp : s.atPc p) :
    (s.setReg r (some w)).reg .pc = some (if r = .pc then w else .addr p) := by
  by_cases hr : r = .pc
  · rw [hr, reg_setReg_self, if_pos rfl]
  · rw [reg_setReg_of_ne s _ (Ne.symm hr), if_neg hr]
    exact hp

/-- A load whose content fits the destination; `m` is the number PC holds before the advance. -/
theorem exec_load_of_coerce {m : Word64} (hp : s.atPc p) (hr : r ≠ .zf) (ha : heapAddr s y 2 = .ok a)
    (hv : memRead s.heap a = some v) (hw : coerce s r v 1 = .ok w)
    (hm : (if r = .pc then w else .addr p) = .addr m) :
    exec (.load (.operand (.reg r)) (.operand y)) s = .next ((s.setReg r (some w)).pcAt (m.toInt + 3)) := by
  rw [exec_load_of_slot hp hr ha hv, hw]
  exact conclude_pcAt (by rw [pc_setReg hp, hm]) (by simp only [Opcode.arity]; omega)

/-! ## ALLOC -/

theorem needInt_of_not_int (hv : ∀ m, v ≠ .int m) :
    needInt s v j = .error (.raise .typeMismatch j none s) := by
  cases v with
  | int m => exact absurd rfl (hv m)
  | char c => rfl
  | bool b => rfl
  | addr m => rfl

/-- Once its operand is resolved, ALLOC asks for an Integer and allocates. -/
theorem exec_alloc_of_value (hp : s.atPc p) (hv : value s x 1 = .ok v) :
    exec (.alloc (.operand x)) s = conclude .alloc s (do let m ← needInt s v 1; allocate s m) := by
  have hx : needValue s x 1 = .ok () := needValue_eq_ok.mpr (isValue_of_value hv)
  calc exec (.alloc (.operand x)) s
      = conclude .alloc s (do needValue s x 1; let v ← value s x 1; let m ← needInt s v 1; allocate s m) :=
        run1_of_enabled x _ hp (enabled_of_not_ext rfl)
    _ = _ := by rw [hx, hv]; rfl

theorem exec_alloc_of_int {m : Word64} (hp : s.atPc p) (hv : value s x 1 = .ok (.int m)) :
    exec (.alloc (.operand x)) s = conclude .alloc s (allocate s m) :=
  exec_alloc_of_value hp hv

theorem allocate_of_no_room {m : Word64} (hh : s.reg .hp = some (.addr h))
    (hm : m.toInt < 0 ∨ h.toInt < 0 ∨ (s.cfg.heapSize : Int) < h.toInt + m.toInt) :
    allocate s m = .error (.raise .outOfMemory 0 none s) := by
  rw [allocate, rdNum_of_addr 0 hh, eff_ok_bind, if_pos hm, raise]

/-- `s` with HP advanced by the size `m`, as ALLOC leaves it before its push (42_heap R180). -/
def State.hpAdvanced (s : State) (h m : Word64) : State :=
  s.setReg .hp (some (.addr (wrapW (h.toInt + m.toInt))))

theorem allocate_of_room {m : Word64} (hh : s.reg .hp = some (.addr h)) (hm : 0 ≤ m.toInt) (h0 : 0 ≤ h.toInt)
    (hle : h.toInt + m.toInt ≤ s.cfg.heapSize) :
    allocate s m = (do let t ← push (s.hpAdvanced h m) (.addr h); .ok (false, t)) := by
  rw [allocate, rdNum_of_addr 0 hh, eff_ok_bind, if_neg (by omega)]
  rfl

theorem atSp_hpAdvanced {m : Word64} (hn : s.atSp n) : (s.hpAdvanced h m).atSp n :=
  (reg_setReg_of_ne s _ (by decide)).trans hn

@[simp] theorem cfg_hpAdvanced (m : Word64) : (s.hpAdvanced h m).cfg = s.cfg := cfg_setReg s .hp _

/-- A push that fails leaves HP advanced and SP decremented, and the fault is taken there. -/
theorem exec_alloc_of_push_error {m : Word64} (hp : s.atPc p) (hv : value s x 1 = .ok (.int m))
    (hh : s.reg .hp = some (.addr h)) (hm : 0 ≤ m.toInt) (h0 : 0 ≤ h.toInt)
    (hle : h.toInt + m.toInt ≤ s.cfg.heapSize)
    (hpush : push (s.hpAdvanced h m) (.addr h) = .error (.raise k 0 none t)) :
    exec (.alloc (.operand x)) s = .next (t.withFault k p (some .alloc) 0 none) := by
  rw [exec_alloc_of_int hp hv, allocate_of_room hh hm h0 hle, hpush]
  exact conclude_raise k 0 none hp

end

/-! ## The statements -/

/-- Settles O32: the destination takes what `coerce` makes of the slot's content. -/
theorem loadResults : Obligations.LoadResults := by
  unfold Obligations.LoadResults
  intro s p r y a hp hr ha
  refine ⟨fun hv => ?empty, fun v hv hg => ?general, fun m hv hs => ?number, fun v hv hs hm => ?neither⟩
  case empty =>
    rw [exec_load_of_heapAddr hp hr ha, needSlot_eq_error.mpr ⟨hv, rfl⟩]
    exact conclude_raise .emptySlot 2 none hp
  case general =>
    have hrpc : r ≠ .pc := by rintro rfl; cases hg
    exact exec_load_of_coerce hp hr ha hv (coerce_of_general hg) (if_neg hrpc)
  case number =>
    obtain ⟨v, hread, hm⟩ : ∃ v, memRead s.heap a = some v ∧ (v = .int m ∨ v = .addr m) := by
      rcases hv with hv | hv
      · exact ⟨_, hv, .inl rfl⟩
      · exact ⟨_, hv, .inr rfl⟩
    rw [← apply_ite BitVec.toInt]
    exact exec_load_of_coerce hp hr ha hread (coerce_of_number hs hm) (apply_ite Storable.addr _ _ _).symm
  case neither =>
    rw [exec_load_of_slot hp hr ha hv, coerce_of_no_number hs hm]
    exact conclude_raise .typeMismatch 1 (some r) hp

/-- Settles O29: the push starts from the state with HP advanced, whose SP and stack are those of before. -/
theorem allocResult : Obligations.AllocResult := by
  unfold Obligations.AllocResult
  intro s p n h m x hp hn hh _ hv hm h0 hle h1 h2
  rw [exec_alloc_of_int hp hv, allocate_of_room hh hm h0 hle, push_of_room (atSp_hpAdvanced hn) h1 (by simpa)]
  refine conclude_pcAt (p := p) ?_ (by simp only [Opcode.arity]; omega)
  rw [reg_writeStack, reg_setReg_of_ne _ _ (by decide), State.hpAdvanced, reg_setReg_of_ne s _ (by decide)]
  exact hp

/-- Settles O30: the tests in their order, the last two those of the push from the state with HP advanced. -/
theorem allocFaults : Obligations.AllocFaults := by
  unfold Obligations.AllocFaults
  intro s p n h x v hp hn hh hc hv
  obtain ⟨⟨-, hss, -⟩, -⟩ := (config_valid_iff _).mp hc
  refine ⟨fun hne => ?type, ?size⟩
  case type =>
    rw [exec_alloc_of_value hp hv, needInt_of_not_int hne]
    exact conclude_raise .typeMismatch 1 none hp
  case size =>
    rintro m rfl
    refine ⟨fun hm => ?memory, fun hm h0 hle => ⟨fun h1 h2 => ?overflow, fun hout => ?outside⟩⟩
    case memory =>
      rw [exec_alloc_of_int hp hv, allocate_of_no_room hh hm]
      exact conclude_raise .outOfMemory 0 none hp
    case overflow =>
      exact exec_alloc_of_push_error hp hv hh hm h0 hle (push_of_overflow (atSp_hpAdvanced hn) h1 h2)
    case outside =>
      exact exec_alloc_of_push_error hp hv hh hm h0 hle (push_of_outside (atSp_hpAdvanced hn) hss hout)

/-- Settles O57: the bounds of a heap address are those of HeapSize alone, so the index STORE wrote can be named
again by a word, whatever the registers and HP hold. -/
theorem storeThenLoadReturnsTheValue : Obligations.StoreThenLoadReturnsTheValue := by
  unfold Obligations.StoreThenLoadReturnsTheValue
  intro s p x y a v r hp hwf ha hv hg hr
  obtain ⟨hstore, hread⟩ := storeResult s p x y a v hp ha hv hwf
  obtain ⟨m, -, hm⟩ := heapAddr_eq_ok.mp ha
  have hrpc : r ≠ .pc := by rintro rfl; cases hg
  set t := (s.writeHeap a (some v)).pcAt (p.toInt + 3) with ht
  have htpc : t.atPc (wrapW (p.toInt + 3)) := reg_setReg_self _ .pc _
  have htcfg : t.cfg = s.cfg := by simp [ht]
  have htslot : memRead t.heap a = some v := by simpa [ht] using hread
  refine ⟨t, hstore, ⟨.addr .heap m, ?named⟩, fun z hz => ?load⟩
  case named => exact heapAddr_eq_ok.mpr ⟨m, .inr rfl, by rwa [htcfg]⟩
  case load =>
    obtain ⟨-, hload, -, -⟩ := loadResults t _ r z a htpc hr hz
    exact ⟨_, hload v htslot hg, by rw [reg_pcAt, if_neg hrpc, reg_setReg_self]⟩

/-- Settles O58: ALLOC leaves the old heap pointer in the slot at SP, and POP reads that slot; neither touches the
heap. -/
theorem allocThenPopGivesTheOldHeapPointer : Obligations.AllocThenPopGivesTheOldHeapPointer := by
  unfold Obligations.AllocThenPopGivesTheOldHeapPointer
  intro s p n h m x r hp hn hh hc hwf hv hm h0 hle h1 h2 hg hr
  obtain ⟨⟨-, -, hhs⟩, -⟩ := (config_valid_iff _).mp hc
  have hpred : (wrapW (n.toInt - 1)).toInt = (n.toInt - 1).toNat := by
    rw [toInt_wrapW_pred (by omega)]
    omega
  have hrpc : r ≠ .pc := by rintro rfl; cases hg
  have hrhp : r ≠ .hp := by rintro rfl; cases hg
  have halloc := allocResult s p n h m x hp hn hh hc hv hm h0 hle h1 h2
  set t := (((s.setReg .hp (some (.addr (wrapW (h.toInt + m.toInt))))).setReg .sp
    (some (.addr (wrapW (n.toInt - 1))))).writeStack (n.toInt - 1).toNat (some (.addr h))).pcAt
    (p.toInt + 2) with ht
  have htpc : t.atPc (wrapW (p.toInt + 2)) := by simp [ht, State.atPc, reg_pcAt]
  have htsp : t.atSp (wrapW (n.toInt - 1)) := by simp [ht, State.atSp, reg_pcAt]
  have hthp : t.reg .hp = some (.addr (wrapW (h.toInt + m.toInt))) := by simp [ht, reg_pcAt]
  have htcfg : t.cfg = s.cfg := by simp [ht]
  have htop : memRead t.stack (n.toInt - 1).toNat = some (.addr h) := by simp [ht, memRead_memWrite _ _ _ hwf]
  have htheap : t.heap = s.heap := by simp [ht]
  have hread : popRead t = .ok (wrapW (n.toInt - 1), .addr h) :=
    popRead_of_slot htsp hpred (by rw [htcfg]; omega) htop
  have hpop := exec_pop_of_coerce htpc hr hread (coerce_of_general hg) (if_neg hrpc)
  refine ⟨t, _, wrapW (h.toInt + m.toInt), halloc, hpop, ?value, ?pointer, ?number, ?heap⟩
  case value => rw [reg_pcAt, if_neg hrpc, reg_setReg_self]
  case pointer => simp [reg_pcAt, reg_popCommit, hrhp.symm, hthp]
  case number => exact toInt_wrapW _ (by omega) (by omega)
  case heap => simp [htheap]

end Sys2Proof.Machine
end

section
/-! PROOF. 43_arithmetic R195 to R199: ADD and SUB, both from what their shared effect function answers for any
operation on the exact numbers, and ZF after a core instruction. -/

namespace Sys2Proof.Machine

section
variable {s t u : State} {p n res : Word64} {o : Opcode} {i : Instr} {b : Bool} {k : FaultKind} {j : Fin 3}
  {q : Option Reg} {r : Reg} {x y : Operand} {d v : Storable} {e : Stop} {f : Int → Int → Int}

/-! ## What ADD and SUB write -/

/-- `s` with the result `v` in `r`, and ZF from its number `res` (43_arithmetic R198), as `arith` leaves it before
the advance. -/
def State.withResult (s : State) (r : Reg) (v : Storable) (res : Word64) : State :=
  writeZf (s.setReg r (some v)) (isZero res)

@[simp] theorem zf_withResult : (s.withResult r v res).reg .zf = some (.bool (decide (res.toInt = 0))) :=
  reg_setReg_self _ .zf _

theorem reg_withResult {r' : Reg} (hz : r' ≠ .zf) :
    (s.withResult r v res).reg r' = if r' = r then some v else s.reg r' :=
  (reg_setReg_of_ne _ _ hz).trans (reg_setReg s r r' _)

/-! ## The effect function, line by line -/

theorem needImmInt_of_not_imm (hy : ∀ v, y ≠ .imm v) :
    needImmInt s y j = .error (.raise .unsupportedOperand j none s) := by
  cases y with
  | imm v => exact absurd rfl (hy v)
  | reg r => rfl
  | off b d => rfl
  | addr a m => rfl

theorem needImmInt_of_no_number (hy : (∃ c, y = .imm (.char c)) ∨ ∃ b, y = .imm (.bool b)) :
    needImmInt s y j = .error (.raise .typeMismatch j none s) := by
  rcases hy with ⟨c, rfl⟩ | ⟨b, rfl⟩ <;> rfl

theorem arithResult_of_no_number (hd : (∃ c, d = .char c) ∨ ∃ b, d = .bool b) :
    arithResult s r f d n = .error (.raise .typeMismatch 1 (some r) s) := by
  rcases hd with ⟨c, rfl⟩ | ⟨b, rfl⟩ <;> rfl

/-- The immediate is tested before the destination is read (43_arithmetic R195). -/
theorem arith_of_needImmInt_error (hr : r ≠ .zf) (hy : needImmInt s y 2 = .error e) :
    arith s f (.reg r) y = .error e := by
  have hdst : dstReg s (.reg r) 1 = .ok r := dstReg_eq_ok.mpr ⟨rfl, hr⟩
  rw [arith, hdst, eff_ok_bind, hy, eff_error_bind]

/-- With both operand words legal, what is left is to read the destination, operate and write. -/
theorem arith_of_int (hr : r ≠ .zf) :
    arith s f (.reg r) (.imm (.int n)) =
      (do let d ← rd s r 1
          let z ← arithResult s r f d n
          .ok (false, s.withResult r z.1 z.2)) := by
  have hdst : dstReg s (.reg r) 1 = .ok r := dstReg_eq_ok.mpr ⟨rfl, hr⟩
  rw [arith, hdst, eff_ok_bind]
  rfl

theorem arith_of_empty (hr : r ≠ .zf) (hd : s.reg r = none) :
    arith s f (.reg r) (.imm (.int n)) = .error (.raise .nilRegister 1 (some r) s) := by
  rw [arith_of_int hr, rd_eq_error.mpr ⟨hd, rfl⟩, eff_error_bind]

theorem arith_of_content (hr : r ≠ .zf) (hd : s.reg r = some d) :
    arith s f (.reg r) (.imm (.int n)) =
      (do let z ← arithResult s r f d n
          .ok (false, s.withResult r z.1 z.2)) := by
  rw [arith_of_int hr, rd_eq_ok.mpr hd, eff_ok_bind]

/-! ## An instruction whose effect function is `arith` -/

/-- ADD or SUB from its result; `m` is the number PC holds before the advance. -/
theorem run2_arith_of_result {m : Word64} (hp : s.atPc p) (hr : r ≠ .zf) (ho : isExtOpcode o = false)
    (ha : o.arity = 2) (hd : s.reg r = some d) (hv : arithResult s r f d n = .ok (v, res))
    (hm : (if r = .pc then v else .addr p) = .addr m) :
    run2 o (.operand (.reg r)) (.operand (.imm (.int n))) s (fun _ => arith s f) =
      .next ((s.withResult r v res).pcAt (m.toInt + 3)) := by
  have hpc : (s.withResult r v res).reg .pc = some (.addr m) := by
    rw [reg_withResult (by decide), ← hm, ← pc_setReg hp, reg_setReg]
  rw [run2_of_enabled _ _ _ hp (enabled_of_not_ext ho), arith_of_content hr hd, hv]
  exact conclude_pcAt hpc (by omega)

/-- An Integer destination stays one. PC holds an Address, so it is not the destination. -/
theorem run2_arith_of_intDest {m : Word64} (hp : s.atPc p) (hr : r ≠ .zf) (ho : isExtOpcode o = false)
    (ha : o.arity = 2) (hd : s.reg r = some (.int m)) (hres : wrapW (f m.toInt n.toInt) = res) :
    run2 o (.operand (.reg r)) (.operand (.imm (.int n))) s (fun _ => arith s f) =
      .next ((s.withResult r (.int res) res).pcAt (p.toInt + 3)) := by
  have hrpc : r ≠ .pc := by
    rintro rfl
    cases hp.symm.trans hd
  subst hres
  exact run2_arith_of_result hp hr ho ha hd rfl (if_neg hrpc)

/-- An Address destination stays one; PC, where it is the destination, is advanced from the result. -/
theorem run2_arith_of_addrDest {m : Word64} (hp : s.atPc p) (hr : r ≠ .zf) (ho : isExtOpcode o = false)
    (ha : o.arity = 2) (hd : s.reg r = some (.addr m)) (hres : wrapW (f m.toInt n.toInt) = res) :
    run2 o (.operand (.reg r)) (.operand (.imm (.int n))) s (fun _ => arith s f) =
      .next ((s.withResult r (.addr res) res).pcAt ((if r = .pc then res.toInt else p.toInt) + 3)) := by
  subst hres
  rw [← apply_ite BitVec.toInt]
  exact run2_arith_of_result hp hr ho ha hd rfl (apply_ite Storable.addr _ _ _).symm

/-- What stops the effect function for every operation stops ADD and SUB alike. -/
theorem add_sub_of_arith_raise (hp : s.atPc p) (h : ∀ f, arith s f x y = .error (.raise k j q s)) :
    exec (.add (.operand x) (.operand y)) s = .next (s.withFault k p (some .add) j q) ∧
    exec (.sub (.operand x) (.operand y)) s = .next (s.withFault k p (some .sub) j q) :=
  ⟨run2_of_raise hp (enabled_of_not_ext rfl) (h _), run2_of_raise hp (enabled_of_not_ext rfl) (h _)⟩

/-! ## ZF -/

/-- The states ADD and SUB leave before the advance. -/
theorem Succeeds.withResult
    (hi : i = .add (.operand (.reg r)) (.operand y) ∨ i = .sub (.operand (.reg r)) (.operand y))
    (h : Succeeds i s b u) :
    ∃ v res, r ≠ .zf ∧ numBits v = some res ∧ b = false ∧ u = s.withResult r v res := by
  rcases hi with rfl | rfl <;>
  · obtain ⟨r', n, d, v, res, f, hw, -, hz, -, hv, hb, hu⟩ := h
    cases hw
    exact ⟨v, res, hz, numBits_of_arithResult hv, hb, hu⟩

/-- No destination operand that passes its test names ZF (40_engine_and_operands R152). -/
theorem Succeeds.isDestination_zf (h : Succeeds i s b u) : isDestination i .zf = false := by
  cases i with
  | mov o1 o2 =>
    obtain ⟨r, y, v, w, rfl, -, hz, -⟩ := h
    simpa [isDestination] using hz
  | pop o1 =>
    obtain ⟨r, n, v, w, rfl, hz, -⟩ := h
    simpa [isDestination] using hz
  | load o1 o2 =>
    obtain ⟨r, y, a, v, w, rfl, -, hz, -⟩ := h
    simpa [isDestination] using hz
  | add o1 o2 | sub o1 o2 =>
    obtain ⟨r, n, d, v, res, f, rfl, -, hz, -⟩ := h
    simpa [isDestination] using hz
  | nop | push o1 | alloc o1 | store o1 o2 | call o1 | ret | jmp o1 | je o1 | jne o1 | eq o1 o2 | ne o1 o2
  | lt o1 o2 | le o1 o2 => rfl

/-- A fault leaves ZF as it was: before it, at most SP and HP were written (60_exceptions R260). -/
theorem StopsWith.zf_left (h : StopsWith o s (.raise k j q t)) : t.reg .zf = s.reg .zf := by
  rcases h.left_eq with rfl | ⟨v, -, rfl⟩ | ⟨v, w, -, rfl⟩ | ⟨v, -, rfl⟩ <;> rfl

/-- No core instruction other than ADD and SUB has ZF in the column "implicit write" of 10_state R43. -/
theorem implicitlyWrites_zf_of_core (hc : isExtOpcode o = false) (ha : o ≠ .add) (hs : o ≠ .sub) :
    implicitlyWrites o .zf = false := by
  cases o with
  | add => exact absurd rfl ha
  | sub => exact absurd rfl hs
  | call | ret | jmp | je | jne | eq | ne | lt | le => cases hc
  | nop | mov | push | pop | alloc | store | load => rfl

/-- The wrap of an intermediate number does not change what a further difference wraps to. -/
theorem wrapW_toInt_wrapW_sub (z c : Int) : wrapW ((wrapW z).toInt - c) = wrapW (z - c) := by
  rw [wrapW_eq_wrapW_iff, sub_sub_sub_cancel_right]
  exact (wrapW_eq_wrapW_iff z _).mp (wrapW_toInt _)


/-- The destination of ADD and SUB after the advance, and ZF. The number written is the one the destination holds,
or, where it is PC, the one the advance started from. -/
theorem zf_after_advance {w : Storable} {m : Word64} (hz : r ≠ .zf) (hv : numBits v = some res)
    (hpc : (s.withResult r v res).reg .pc = some w) (hm : numBits w = some m) (ha : o.arity = 2) :
    let t := (s.withResult r v res).setReg .pc (some (.addr (wrapW (m.toInt + 1 + o.arity))))
    ∃ v n, t.reg r = some v ∧ numBits v = some n ∧
      t.reg .zf = some (.bool (decide ((if r = .pc then wrapW (n.toInt - 3) else n).toInt = 0))) := by
  intro t
  have hzf : t.reg .zf = some (.bool (decide (res.toInt = 0))) :=
    (reg_setReg_of_ne _ _ (by decide)).trans zf_withResult
  by_cases hrpc : r = .pc
  · subst hrpc
    rw [reg_withResult hz, if_pos rfl] at hpc
    cases hpc
    cases hv.symm.trans hm
    have hback : wrapW ((wrapW (res.toInt + 1 + o.arity)).toInt - 3) = res := by
      rw [wrapW_toInt_wrapW_sub, show res.toInt + 1 + o.arity - 3 = res.toInt by omega, wrapW_toInt]
    exact ⟨_, _, reg_setReg_self _ .pc _, rfl, by rw [if_pos rfl, hback, hzf]⟩
  · have hr : t.reg r = some v := by rw [reg_setReg_of_ne _ _ hrpc, reg_withResult hz, if_pos rfl]
    exact ⟨v, res, hr, hv, by rw [if_neg hrpc, hzf]⟩

end

/-! ## The statements -/

/-- Settles O33: the sum is one of the operations `arith` is given. -/
theorem addResult : Obligations.AddResult := by
  unfold Obligations.AddResult
  intro s p m n r hp hr _ _
  exact ⟨fun hd => run2_arith_of_intDest hp hr rfl rfl hd rfl,
    fun hd => run2_arith_of_addrDest hp hr rfl rfl hd rfl⟩

/-- Settles O34: the difference is one of the operations `arith` is given, the destination its first argument. -/
theorem subResult : Obligations.SubResult := by
  unfold Obligations.SubResult
  intro s p m n r hp hr _ _
  exact ⟨fun hd => run2_arith_of_intDest hp hr rfl rfl hd rfl,
    fun hd => run2_arith_of_addrDest hp hr rfl rfl hd rfl⟩

/-- Settles O35: the tests come before every write and do not depend on the operation. -/
theorem arithmeticFaults : Obligations.ArithmeticFaults := by
  unfold Obligations.ArithmeticFaults
  intro s p r y hp hr both
  refine ⟨fun hy => ?shape, fun hy => ?immediate, fun n hy hd => ?empty, fun n v hy hd hv => ?content⟩
  case shape =>
    exact add_sub_of_arith_raise hp fun _ => arith_of_needImmInt_error hr (needImmInt_of_not_imm hy)
  case immediate =>
    exact add_sub_of_arith_raise hp fun _ => arith_of_needImmInt_error hr (needImmInt_of_no_number hy)
  case empty =>
    subst hy
    exact add_sub_of_arith_raise hp fun _ => arith_of_empty hr hd
  case content =>
    subst hy
    refine add_sub_of_arith_raise hp fun _ => ?_
    rw [arith_of_content hr hd, arithResult_of_no_number hv, eff_error_bind]

/-- Settles O36: ADD and SUB set ZF from the number of the value they write, which the advance changes only where it
was written to PC; a core instruction other than these has ZF neither as an implicit write nor as a destination. -/
theorem zeroFlagMeansZeroResult : Obligations.ZeroFlagMeansZeroResult := by
  unfold Obligations.ZeroFlagMeansZeroResult
  refine ⟨fun s t p r y i _ _ ht hi h => ?written, fun s t i hc ha hs h => ?kept⟩
  case written =>
    rcases exec_cases h with hs | ⟨u, w, m, hs, hpc, hm, rfl⟩ | ⟨k, j, q, left, -, rfl⟩
    · obtain ⟨v, res, -, -, hb, -⟩ := hs.withResult hi
      cases hb
    · obtain ⟨v, res, hz, hv, -, rfl⟩ := hs.withResult hi
      exact zf_after_advance hz hv hpc hm (by rcases hi with rfl | rfl <;> rfl)
    · cases ht
  case kept =>
    have hw : implicitlyWrites i.opcode .zf = false := implicitlyWrites_zf_of_core hc ha hs
    rcases exec_cases h with hs | ⟨u, w, m, hs, -⟩ | ⟨k, j, q, left, hs, rfl⟩
    · exact registerFrame i s t .zf h nofun hs.isDestination_zf hw
    · exact registerFrame i s t .zf h nofun hs.isDestination_zf hw
    · exact (reg_takeFault left _ .zf).trans hs.zf_left

end Sys2Proof.Machine
end

section
/-! PROOF. 44_move R210, R211: MOV, from what `coerce` makes of the resolved source for its destination. -/

namespace Sys2Proof.Machine

section
variable {s : State} {p : Word64} {r : Reg} {y : Operand} {v w : Storable}

/-- Once its source is resolved, MOV fits the value to the destination and writes it. -/
theorem exec_mov_of_value (hp : s.atPc p) (hr : r ≠ .zf) (hv : value s y 2 = .ok v) :
    exec (.mov (.operand (.reg r)) (.operand y)) s =
      conclude .mov s (do let u ← coerce s r v 1; .ok (false, s.setReg r (some u))) := by
  have hd : dstReg s (.reg r) 1 = .ok r := dstReg_eq_ok.mpr ⟨rfl, hr⟩
  have hy : needValue s y 2 = .ok () := needValue_eq_ok.mpr (isValue_of_value hv)
  calc exec (.mov (.operand (.reg r)) (.operand y)) s
      = conclude .mov s (do
          let r ← dstReg s (.reg r) 1
          needValue s y 2
          let v ← value s y 2
          let u ← coerce s r v 1
          .ok (false, s.setReg r (some u))) := run2_of_enabled _ y _ hp (enabled_of_not_ext rfl)
    _ = _ := by rw [hd, hy, hv]; rfl

/-- A move whose value fits the destination; `m` is the number PC holds before the advance. -/
theorem exec_mov_of_coerce {m : Word64} (hp : s.atPc p) (hr : r ≠ .zf) (hv : value s y 2 = .ok v)
    (hw : coerce s r v 1 = .ok w) (hm : (if r = .pc then w else .addr p) = .addr m) :
    exec (.mov (.operand (.reg r)) (.operand y)) s = .next ((s.setReg r (some w)).pcAt (m.toInt + 3)) := by
  rw [exec_mov_of_value hp hr hv, hw]
  exact conclude_pcAt (by rw [pc_setReg hp, hm]) (by simp only [Opcode.arity]; omega)

theorem ne_zf_of_isSpecial (hr : isSpecial r = true) : r ≠ .zf := by
  rintro rfl
  cases hr

theorem ne_pc_of_general (hr : isSpecial r = false) : r ≠ .pc := by
  rintro rfl
  cases hr

end

/-- Settles O25: a row of the table for each answer of `coerce`; ZF is no destination, so its row is O23's. -/
theorem movResultTable : Obligations.MovResultTable := by
  unfold Obligations.MovResultTable
  intro s p r y hp
  refine ⟨fun v hg hz hv => ?general, fun n hs hv => ?number, fun v hs hv hm => ?neither, ?zf⟩
  case general =>
    exact exec_mov_of_coerce hp hz hv (coerce_of_general hg) (if_neg (ne_pc_of_general hg))
  case number =>
    obtain ⟨v, hread, hm⟩ : ∃ v, value s y 2 = .ok v ∧ (v = .int n ∨ v = .addr n) := by
      rcases hv with hv | hv
      · exact ⟨_, hv, .inl rfl⟩
      · exact ⟨_, hv, .inr rfl⟩
    rw [← apply_ite BitVec.toInt]
    exact exec_mov_of_coerce hp (ne_zf_of_isSpecial hs) hread (coerce_of_number hs hm)
      (apply_ite Storable.addr _ _ _).symm
  case neither =>
    rw [exec_mov_of_value hp (ne_zf_of_isSpecial hs) hv, coerce_of_no_number hs hm]
    exact conclude_raise .typeMismatch 1 (some r) hp
  case zf =>
    obtain ⟨-, hmov, -⟩ := badDestinationFaults s p (.reg .zf) y hp fun _ h => (Operand.reg.inj h).symm
    exact hmov

end Sys2Proof.Machine
end

section
/-! PROOF. 45_compare R220 to R225: EQ, NE, LT and LE, all four from what follows the resolution they share, LT and LE
from the type tests they share. -/

namespace Sys2Proof.Machine

section
variable {s : State} {p m n : Word64} {o : Opcode} {j : Fin 3} {x y : Operand} {a b : Storable} {c : Bool}
  {g : Storable × Storable → Effect}

/-! ## The two operands -/

/-- Values that resolve have the shape of values, so both shape tests pass (45_compare R221). -/
theorem twoValues_of_values (hx : value s x 1 = .ok a) (hy : value s y 2 = .ok b) :
    twoValues s x y = .ok (a, b) := by
  have hxs : needValue s x 1 = .ok () := needValue_eq_ok.mpr (isValue_of_value hx)
  have hys : needValue s y 2 = .ok () := needValue_eq_ok.mpr (isValue_of_value hy)
  simp only [twoValues, hxs, hys, hx, hy, eff_ok_bind]

theorem twoValues_of_bad_first (hx : isValue x = false) :
    twoValues s x y = .error (.raise .unsupportedOperand 1 none s) :=
  eff_bind_eq_error.mpr (.inl (needValue_eq_error.mpr ⟨hx, rfl⟩))

/-- The shape of operand 2 is tested before operand 1 is resolved. -/
theorem twoValues_of_bad_second (hx : isValue x = true) (hy : isValue y = false) :
    twoValues s x y = .error (.raise .unsupportedOperand 2 none s) :=
  eff_bind_eq_error.mpr (.inr ⟨(), needValue_eq_ok.mpr hx,
    eff_bind_eq_error.mpr (.inl (needValue_eq_error.mpr ⟨hy, rfl⟩))⟩)

/-! ## The type tests of LT and LE -/

theorem orderedPair_of_no_number (ha : (∃ c, a = .char c) ∨ ∃ c, a = .bool c) :
    orderedPair s a b = .error (.raise .typeMismatch 1 none s) := by
  rcases ha with ⟨c, rfl⟩ | ⟨c, rfl⟩ <;> rfl

theorem orderedPair_of_other_variant
    (h : (∃ m, a = .int m) ∧ (∀ n, b ≠ .int n) ∨ (∃ m, a = .addr m) ∧ (∀ n, b ≠ .addr n)) :
    orderedPair s a b = .error (.raise .typeMismatch 2 none s) := by
  rcases h with ⟨⟨m, rfl⟩, hb⟩ | ⟨⟨m, rfl⟩, hb⟩
  · cases b with
    | int n => exact absurd rfl (hb n)
    | char c | bool c | addr n => rfl
  · cases b with
    | addr n => exact absurd rfl (hb n)
    | int n | char c | bool c => rfl

/-! ## The ends of a compare -/

/-- A compare whose operands resolve and whose test answers `c`: ZF is written, which is not PC, and PC advances. -/
theorem run2_compare_of_answer (hp : s.atPc p) (he : s.cfg.ext = true) (ho : o.arity = 2)
    (hx : value s x 1 = .ok a) (hy : value s y 2 = .ok b) (hg : g (a, b) = .ok (false, writeZf s c)) :
    run2 o (.operand x) (.operand y) s (fun _ x y => twoValues s x y >>= g) =
      .next ((s.setReg .zf (some (.bool c))).pcAt (p.toInt + 3)) := by
  have hpc : (writeZf s c).reg .pc = some (.addr p) := (reg_setReg_of_ne s _ (by decide)).trans hp
  rw [run2_of_enabled x y _ hp fun _ => he, twoValues_of_values hx hy, eff_ok_bind, hg]
  exact conclude_pcAt hpc (by omega)

/-- LT and LE on two numbers of one variant (45_compare R223, R224). -/
theorem lt_le_of_orderedPair (hp : s.atPc p) (he : s.cfg.ext = true) (hx : value s x 1 = .ok a)
    (hy : value s y 2 = .ok b) (h : orderedPair s a b = .ok (m, n)) :
    exec (.lt (.operand x) (.operand y)) s =
      .next ((s.setReg .zf (some (.bool (decide (m.toInt < n.toInt))))).pcAt (p.toInt + 3)) ∧
    exec (.le (.operand x) (.operand y)) s =
      .next ((s.setReg .zf (some (.bool (decide (m.toInt ≤ n.toInt))))).pcAt (p.toInt + 3)) :=
  ⟨run2_compare_of_answer hp he rfl hx hy (eff_bind_eq_ok.mpr ⟨(m, n), h, rfl⟩),
    run2_compare_of_answer hp he rfl hx hy (eff_bind_eq_ok.mpr ⟨(m, n), h, rfl⟩)⟩

/-- LT and LE on two values with no order: the type tests leave the state as it was. -/
theorem lt_le_of_orderedPair_raise (hp : s.atPc p) (he : s.cfg.ext = true) (hx : value s x 1 = .ok a)
    (hy : value s y 2 = .ok b) (h : orderedPair s a b = .error (.raise .typeMismatch j none s)) :
    exec (.lt (.operand x) (.operand y)) s = .next (s.withFault .typeMismatch p (some .lt) j none) ∧
    exec (.le (.operand x) (.operand y)) s = .next (s.withFault .typeMismatch p (some .le) j none) :=
  have hv : twoValues s x y = .ok (a, b) := twoValues_of_values hx hy
  ⟨run2_of_raise hp (fun _ => he) (eff_bind_eq_error.mpr (.inr ⟨_, hv, eff_bind_eq_error.mpr (.inl h)⟩)),
    run2_of_raise hp (fun _ => he) (eff_bind_eq_error.mpr (.inr ⟨_, hv, eff_bind_eq_error.mpr (.inl h)⟩))⟩

end

/-! ## The statements -/

/-- Settles O37: EQ and NE answer for any two values; the rows of LT and LE are the answers of `orderedPair`. -/
theorem compareOutcomeTable : Obligations.CompareOutcomeTable := by
  unfold Obligations.CompareOutcomeTable
  intro s p x y a b hp he hx hy answers faults
  refine ⟨?equal, ?different, fun m n h => ?ordered, fun h => ?noNumber, fun h => ?otherVariant⟩
  case equal => exact run2_compare_of_answer hp he rfl hx hy rfl
  case different =>
    rw [decide_not]
    exact run2_compare_of_answer hp he rfl hx hy rfl
  case ordered => exact lt_le_of_orderedPair hp he hx hy (orderedPair_eq_ok.mpr h)
  case noNumber => exact lt_le_of_orderedPair_raise hp he hx hy (orderedPair_of_no_number h)
  case otherVariant => exact lt_le_of_orderedPair_raise hp he hx hy (orderedPair_of_other_variant h)

/-- Settles O38: both shape tests come before either resolution, operand 1 first. -/
theorem compareShapeFaults : Obligations.CompareShapeFaults := by
  unfold Obligations.CompareShapeFaults
  intro s p x y j hp he h
  have hshape : twoValues s x y = .error (.raise .unsupportedOperand j none s) := by
    rcases h with ⟨hx, rfl⟩ | ⟨hx, hy, rfl⟩
    · exact twoValues_of_bad_first hx
    · exact twoValues_of_bad_second hx hy
  exact compares_of_twoValues_raise hp he hshape

end Sys2Proof.Machine
end

section
/-! PROOF. 46_control_transfer R230 to R237: JMP, JE, JNE, CALL and RET, each from what its target operand and the
stack primitive answer, and the advance after a write to PC. -/

namespace Sys2Proof.Machine

section
variable {s u : State} {p n t : Word64} {o : Opcode} {j : Fin 3} {k : FaultKind} {x : Operand} {v : Storable}
  {b c : Bool}

/-! ## Target operands -/

theorem target_of_inside (h0 : 0 ≤ t.toInt) (ht : t.toInt ≤ s.progLen) : target s (.addr .prog t) j = .ok t :=
  target_eq_ok.mpr ⟨rfl, h0, ht⟩

theorem target_of_outside (hx : ∀ t : Word64, x = .addr .prog t → t.toInt < 0 ∨ (s.progLen : Int) < t.toInt) :
    target s x j = .error (.raise .unsupportedOperand j none s) := by
  cases h : target s x j with
  | ok t =>
    obtain ⟨rfl, h0, ht⟩ := target_eq_ok.mp h
    rcases hx t rfl with ht' | ht' <;> omega
  | error e => rw [target_eq_error h]

/-- JMP, JE, JNE and CALL look at their target first. -/
theorem target_bind_of_outside {α : Type} {f : Word64 → Eff α}
    (hx : ∀ t : Word64, x = .addr .prog t → t.toInt < 0 ∨ (s.progLen : Int) < t.toInt) :
    (target s x j >>= f) = .error (.raise .unsupportedOperand j none s) :=
  eff_bind_eq_error.mpr (.inl (target_of_outside hx))

/-! ## PC after a jump -/

@[simp] theorem progWord_setReg (r : Reg) (w : Slot) (i : Nat) : (s.setReg r w).progWord i = s.progWord i := by
  simp [State.progWord]

theorem status_eq_halted (hf : s.fault = none) (hp : s.atPc p) (h : s.progLen ≤ p.toInt) :
    s.status = .halted := by
  have hpc : s.reg .pc = some (.addr p) := hp
  simp [State.status, hf, hpc, h]

theorem atPc_pcAt (z : Int) : (s.pcAt z).atPc (wrapW z) := reg_setReg_self s .pc _

/-! ## JMP, JE and JNE -/

theorem exec_jmp_of_target (hp : s.atPc p) (he : s.cfg.ext = true) (ht : target s x 1 = .ok t) :
    exec (.jmp (.operand x)) s = .next (s.setReg .pc (some (.addr t))) := by
  calc exec (.jmp (.operand x)) s
      = conclude .jmp s (do let t ← target s x 1; jumpTo s t) := run1_of_enabled x _ hp fun _ => he
    _ = .next (s.setReg .pc (some (.addr t))) := by rw [ht]; rfl

theorem zfIs_of_bool (hz : s.reg .zf = some (.bool c)) : zfIs s b = .ok (decide (c = b)) :=
  zfIs_eq_ok.mpr ⟨_, hz, by simp [sameValue]⟩

theorem zfIs_of_empty (hz : s.reg .zf = none) : zfIs s b = .error (.raise .nilRegister 0 (some .zf) s) :=
  eff_bind_eq_error.mpr (.inl (rd_eq_error.mpr ⟨hz, rfl⟩))

/-- A conditional jump with a legal target and a Bool in ZF: taken when that is the Bool asked for. -/
theorem run1_jumpIf_of_bool (hp : s.atPc p) (he : s.cfg.ext = true) (ho : o.arity = 1)
    (ht : target s x 1 = .ok t) (hz : s.reg .zf = some (.bool c)) :
    run1 o (.operand x) s (fun _ x => jumpIf s b x) =
      .next (if c = b then s.setReg .pc (some (.addr t)) else s.pcAt (p.toInt + 2)) := by
  rw [run1_of_enabled x _ hp fun _ => he, jumpIf, ht, eff_ok_bind, zfIs_of_bool hz, eff_ok_bind]
  by_cases hcb : c = b
  · simp only [hcb, decide_true, if_true]
    rfl
  · simp only [hcb, decide_false, if_false, Bool.false_eq_true]
    exact conclude_pcAt hp (by omega)

/-- ZF is read after the target has been tested. -/
theorem run1_jumpIf_of_empty (hp : s.atPc p) (he : s.cfg.ext = true) (ht : target s x 1 = .ok t)
    (hz : s.reg .zf = none) :
    run1 o (.operand x) s (fun _ x => jumpIf s b x) =
      .next (s.withFault .nilRegister p (some o) 0 (some .zf)) := by
  refine run1_of_raise hp (fun _ => he) ?_
  rw [jumpIf, ht, eff_ok_bind, zfIs_of_empty hz, eff_error_bind]

/-! ## CALL -/

/-- With a legal target, CALL pushes the index of the word after it, then jumps. -/
theorem exec_call_of_target (hp : s.atPc p) (he : s.cfg.ext = true) (ht : target s x 1 = .ok t) :
    exec (.call (.operand x)) s =
      conclude .call s (do let u ← push s (.addr (wrapW (p.toInt + 2))); jumpTo u t) := by
  calc exec (.call (.operand x)) s
      = conclude .call s (do
          let t ← target s x 1
          let u ← push s (.addr (wrapW (p.toInt + 2)))
          jumpTo u t) := run1_of_enabled x _ hp fun _ => he
    _ = _ := by rw [ht, eff_ok_bind]

/-- The fault is taken in the state the push left, SP decremented; PC is not written (41_stack R170). -/
theorem exec_call_of_push_error (hp : s.atPc p) (he : s.cfg.ext = true) (ht : target s x 1 = .ok t)
    (h : push s (.addr (wrapW (p.toInt + 2))) = .error (.raise k 0 none u)) :
    exec (.call (.operand x)) s = .next (u.withFault k p (some .call) 0 none) := by
  rw [exec_call_of_target hp he ht, h]
  exact conclude_raise k 0 none hp

/-! ## RET -/

/-- Once the slot at SP is read, RET makes an Address of its content, commits, and puts the Address into PC. -/
theorem exec_ret_of_popRead (hp : s.atPc p) (he : s.cfg.ext = true) (hv : popRead s = .ok (n, v)) :
    exec .ret s =
      conclude .ret s (do let u ← coerce s .pc v 0; .ok (true, (popCommit s n).setReg .pc (some u))) := by
  calc exec .ret s
      = conclude .ret s (do
          let (n, v) ← popRead s
          let u ← coerce s .pc v 0
          .ok (true, (popCommit s n).setReg .pc (some u))) := run0_of_enabled _ hp fun _ => he
    _ = _ := by rw [hv, eff_ok_bind]

/-! ## Writes to PC -/

/-- The wrap of a number written to PC does not change what the advance makes of it. -/
theorem wrapW_toInt_wrapW_add (z d : Int) : wrapW ((wrapW z).toInt + d) = wrapW (z + d) := by
  simpa only [sub_neg_eq_add] using wrapW_toInt_wrapW_sub z (-d)

end

/-! ## The statements -/

/-- Settles O39: a jump leaves the program as it was, so the next step finds the same words at the target. -/
theorem targetOperandYields : Obligations.TargetOperandYields := by
  unfold Obligations.TargetOperandYields
  intro s j
  have hpc (t : Word64) : (s.setReg .pc (some (.addr t))).atPc t := reg_setReg_self s .pc _
  refine ⟨fun t h0 ht => target_of_inside h0 ht, fun x hx => target_of_outside hx,
    fun t hf ht => ?atEnd, fun t hf h0 hlt hw => ?atNonOpcode⟩
  case atEnd => exact status_eq_halted (by rwa [fault_setReg]) (hpc t) (by rw [progLen_setReg]; omega)
  case atNonOpcode =>
    refine fetchFaultsOnANonOpcode _ t (by rwa [fault_setReg]) (hpc t) (by rwa [progLen_setReg]) (.inr ?_)
    simpa only [progWord_setReg] using hw

/-- Settles O40: the effect of a taken transfer is the state the instruction ends with. -/
theorem jmpResult : Obligations.JmpResult := by
  unfold Obligations.JmpResult
  intro s p t hp he h0 ht
  exact exec_jmp_of_target hp he (target_of_inside h0 ht)

/-- Settles O42: the target is tested before ZF is read and before anything is pushed. -/
theorem badTargetFaults : Obligations.BadTargetFaults := by
  unfold Obligations.BadTargetFaults
  intro s p x hp he hx
  refine ⟨?jmp, ?je, ?jne, ?call⟩
  case jmp | je | jne | call => exact run1_of_raise hp (fun _ => he) (target_bind_of_outside hx)

/-- Settles O41: JE asks for `true` in ZF and JNE for `false`, so for a Bool exactly one of the two is taken. -/
theorem conditionalJumpResults : Obligations.ConditionalJumpResults := by
  unfold Obligations.ConditionalJumpResults
  intro s p t hp he h0 ht
  have htarget : target s (.addr .prog t) 1 = .ok t := target_of_inside h0 ht
  refine ⟨fun b hz => ⟨?je, ?jne⟩, fun hz => ⟨?jeEmpty, ?jneEmpty⟩⟩
  case je => exact run1_jumpIf_of_bool hp he rfl htarget hz
  case jne =>
    have hjne : exec (.jne (.operand (.addr .prog t))) s =
        .next (if b = false then s.setReg .pc (some (.addr t)) else s.pcAt (p.toInt + 2)) :=
      run1_jumpIf_of_bool hp he rfl htarget hz
    rw [hjne]
    cases b <;> rfl
  case jeEmpty | jneEmpty => exact run1_jumpIf_of_empty hp he htarget hz

/-- Settles O43: the three outcomes of the push; PC is written only after one that succeeds. -/
theorem callOutcomes : Obligations.CallOutcomes := by
  unfold Obligations.CallOutcomes
  intro s p n t hp hn he hc h0 ht
  obtain ⟨⟨-, hss, -⟩, -⟩ := (config_valid_iff _).mp hc
  have htarget : target s (.addr .prog t) 1 = .ok t := target_of_inside h0 ht
  refine ⟨fun h1 h2 => ?room, fun h1 h2 => ?overflow, fun h => ?outside⟩
  case room =>
    rw [exec_call_of_target hp he htarget, push_of_room hn h1 h2]
    rfl
  case overflow => exact exec_call_of_push_error hp he htarget (push_of_overflow hn h1 h2)
  case outside => exact exec_call_of_push_error hp he htarget (push_of_outside hn hss h)

/-- Settles O44: PC is a Special register, so it takes a number and nothing else (40_engine_and_operands R153); a
content it does not take is refused before the pop is committed. -/
theorem retResults : Obligations.RetResults := by
  unfold Obligations.RetResults
  intro s p n i v hp hn he hi hlt hv
  have hread : popRead s = .ok (n, v) := popRead_of_slot hn hi hlt hv
  refine ⟨fun m hm => ?number, fun hm => ?neither⟩
  case number =>
    have hslot : n.toInt.toNat = i := by omega
    rw [exec_ret_of_popRead hp he hread, coerce_of_number rfl hm, eff_ok_bind, conclude_taken, popCommit, hslot]
  case neither =>
    rw [exec_ret_of_popRead hp he hread, coerce_of_no_number rfl hm]
    exact conclude_raise .typeMismatch 0 (some .pc) hp

/-- Settles O59: the CALL leaves SP at the slot that holds the return address, and the RET reads, clears and leaves
that slot. -/
theorem callThenRetReturns : Obligations.CallThenRetReturns := by
  unfold Obligations.CallThenRetReturns
  intro s p n t hp hn he hc hwf h0 ht h1 h2
  obtain ⟨i, hi⟩ : ∃ i : Nat, n.toInt = i + 1 := ⟨(n.toInt - 1).toNat, by omega⟩
  have hpred : (wrapW (n.toInt - 1)).toInt = i := by rw [toInt_wrapW_pred (by omega)]; omega
  have hslot : (n.toInt - 1).toNat = i := by omega
  have hcall := (callOutcomes s p n t hp hn he hc h0 ht).1 h1 h2
  set u := ((s.setReg .sp (some (.addr (wrapW (n.toInt - 1))))).writeStack (n.toInt - 1).toNat
    (some (.addr (wrapW (p.toInt + 2))))).setReg .pc (some (.addr t)) with hu
  have hupc : u.atPc t := reg_setReg_self _ .pc _
  have husp : u.atSp (wrapW (n.toInt - 1)) := by simp [hu, State.atSp]
  have hucfg : u.cfg = s.cfg := by simp [hu]
  have hustack : u.stack = memWrite s.stack i (some (.addr (wrapW (p.toInt + 2)))) := by simp [hu, hslot]
  have htop : memRead u.stack i = some (.addr (wrapW (p.toInt + 2))) := by
    rw [hustack, memRead_memWrite i _ i hwf, if_pos rfl]
  have hret := (retResults u _ _ i _ hupc husp (by rwa [hucfg]) hpred (by rw [hucfg]; omega) htop).1 _ (.inr rfl)
  have hback : wrapW ((wrapW (n.toInt - 1)).toInt + 1) = n := by rw [hpred, ← hi, wrapW_toInt]
  refine ⟨u, _, hcall, hret, ?pc, ?sp, ?bp, ?slot, fun a ha => ?others⟩
  case pc => exact reg_setReg_self _ .pc _
  case sp =>
    rw [reg_setReg_of_ne _ _ (by decide), reg_setReg_self, hback]
    exact hn.symm
  case bp => simp [hu]
  case slot => simp [hustack, hslot, memRead_memWrite_clear i i _ hwf]
  case others =>
    have hne : a ≠ i := by omega
    simp [hustack, memRead_memWrite_clear i a _ hwf, hne]

/-- Settles O60: where PC is the destination, the advance starts from the number written to it. -/
theorem pcWritesAreAdvanced : Obligations.PcWritesAreAdvanced := by
  unfold Obligations.PcWritesAreAdvanced
  intro s p n hp
  obtain ⟨-, hmov, -⟩ := movResultTable s p .pc (.imm (.int n)) hp
  obtain ⟨-, hadd⟩ := addResult s p p n .pc hp nofun
  obtain ⟨-, hsub⟩ := subResult s p p n .pc hp nofun
  refine ⟨⟨_, hmov n rfl (.inl rfl), ?mov⟩, ⟨_, hadd hp, ?add⟩, ⟨_, hsub hp, ?sub⟩⟩
  case mov => exact atPc_pcAt _
  case add =>
    rw [← wrapW_toInt_wrapW_add (p.toInt + n.toInt)]
    exact atPc_pcAt _
  case sub =>
    rw [← wrapW_toInt_wrapW_add (p.toInt - n.toInt)]
    exact atPc_pcAt _

end Sys2Proof.Machine
end

section
/-! PROOF. 60_exceptions R258, R259: the run state as a function of the state, and that a step changes nothing in a
state that is not `Running`. -/

namespace Sys2Proof.Machine

section
variable {s : State} {p : Word64}

/-! ## The run state -/

/-- The run state of every state a run can reach, where PC holds an Address (60_exceptions R258). -/
theorem status_of_atPc (hp : s.atPc p) :
    s.status = if s.fault.isSome then .faulted else if (s.progLen : Int) ≤ p.toInt then .halted else .running := by
  have hpc : s.reg .pc = some (.addr p) := hp
  simp [State.status, hpc]

/-- Whatever PC holds, a recorded fault and a PC at or beyond the end of the program are all that stop the engine. -/
theorem status_ne_running_iff :
    s.status ≠ .running ↔
      s.fault.isSome = true ∨ ∃ n, (s.reg .pc).bind numBits = some n ∧ (s.progLen : Int) ≤ n.toInt := by
  unfold State.status
  split
  · next hf => simp [hf]
  · next hf =>
    split
    · next n hn =>
      rw [hn]
      simp [hf]
    · next hn =>
      rw [hn]
      simp [hf]

theorem status_of_fault (hf : s.fault ≠ none) : s.status = .faulted := by
  simp [State.status, Option.isSome_iff_ne_none.mpr hf]

/-! ## Steps of an engine that does not run -/

theorem fetch_idle_of_status (h : s.status ≠ .running) : fetch s = .idle := by
  rcases status_ne_running_iff.mp h with hf | ⟨n, hn, hle⟩
  · simp only [fetch, if_pos hf]
  · have hpc : currentPc s = .ok n := rdNum_eq_ok_iff_bind.mpr hn
    simp only [fetch, hpc, if_pos hle, ite_self]

theorem step_of_status (h : s.status ≠ .running) : step s = .next s := by
  simp only [step, fetch_idle_of_status h]

/-- A state that steps to itself is where every run from it ends. -/
theorem run_of_step_self {M : Host.Core} {x : M.State} (h : M.step x = .next x) (k : Nat) : M.run k x = .next x := by
  induction k with
  | zero => rfl
  | succ k ih => exact (run_succ_of_step h).trans ih

end

/-! ## The statements -/

/-- Settles O3: the run state is read off the record and PC; a negative PC is before the end of every program, so the
fetch runs and finds no opcode there. -/
theorem runStateIsAFunctionOfTheState : Obligations.RunStateIsAFunctionOfTheState := by
  unfold Obligations.RunStateIsAFunctionOfTheState
  intro s p hp
  refine ⟨?faulted, ?halted, ?running, fun hf h0 => ?negative⟩
  case negative => exact fetchFaultsOnANonOpcode s p hf hp (by omega) (.inl h0)
  all_goals
    rw [status_of_atPc hp]
    cases s.fault with
    | some f => simp
    | none => by_cases hle : (s.progLen : Int) ≤ p.toInt <;> simp [hle, ← not_le]

/-- Settles O4: the fetch of an engine that does not run is idle; the run state of a fault is `Faulted`. -/
theorem terminalStatesStay : Obligations.TerminalStatesStay := by
  unfold Obligations.TerminalStatesStay
  intro s k h
  have hstep : step s = .next s := step_of_status h
  refine ⟨hstep, run_of_step_self (M := core) hstep k, fun hf hfin => ?_⟩
  have hhalted : s.status = .halted := hfin
  rw [status_of_fault hf] at hhalted
  cases hhalted

end Sys2Proof.Machine
end

section
/-! PROOF. 60_exceptions R256, R257, R260, R263: the step that records a fault. `exec_records` and `step_records` say
once where a new record comes from: from a stop of one instruction (`StopsWith`), or of the fetch. -/

namespace Sys2Proof.Machine

section
variable {i : Instr} {s t left : State} {p : Word64} {f : FaultRecord} {o : Opcode} {k : FaultKind} {j : Fin 3}
  {q : Option Reg}

/-! ## The opcode of the fetch -/

/-- The instruction that runs is of the opcode at PC. -/
theorem fetchOpcode_of_fetch_run (hp : s.atPc p) (h : fetch s = .run i) : fetchOpcode s p = .ok i.opcode := by
  obtain ⟨n, o, -, hn, h0, -, hw, -, rfl⟩ := fetch_eq_run h
  rw [currentPc_of_atPc hp] at hn
  cases hn
  rw [Instr.opcode_ofWords]
  exact fetchOpcode_eq_ok.mpr ⟨h0, hw⟩

/-- A fetch that stops knows the opcode at PC, if there is one, and has written nothing. -/
theorem fetch_stop_of_atPc {d : Option Opcode} {e : Stop} (hp : s.atPc p) (h : fetch s = .stop d e) :
    d = (fetchOpcode s p).toOption ∧ ∃ k j, e = .raise k j none s := by
  obtain ⟨-, ⟨-, he⟩ | ⟨n, k, j, hn, -, rfl, hd⟩⟩ := fetch_eq_stop h
  · rw [currentPc_of_atPc hp] at he
    cases he
  · rw [currentPc_of_atPc hp] at hn
    cases hn
    refine ⟨?_, k, j, rfl⟩
    rcases hd with ⟨rfl, -, hw⟩ | ⟨o, rfl, hw, -⟩ <;> rw [hw] <;> rfl

/-! ## Where a record comes from -/

/-- A fault an instruction records is one it stopped with; an instruction that did not stop writes no record. -/
theorem exec_records (hf : s.fault = none) (h : exec i s = .next t) (ht : t.fault = some f) :
    f.opcode = some i.opcode ∧
      ∃ left, StopsWith i.opcode s (.raise f.kind f.operand f.reg left) ∧ t = left.takeFault f := by
  have no_record {b : Bool} {u : State} (hu : Succeeds i s b u) : u.fault = none :=
    hu.edits.constants.2.2.trans hf
  rcases exec_cases h with hs | ⟨u, v, n, hs, -, -, rfl⟩ | ⟨k, j, r, left, hs, rfl⟩
  · rw [no_record hs] at ht
    cases ht
  · rw [fault_setReg, no_record hs] at ht
    cases ht
  · cases ht
    exact ⟨rfl, left, hs, rfl⟩

/-- A fault a step records carries the opcode at PC. The fetch took it in the state the step began in, or the
instruction there stopped with it. -/
theorem step_records (hf : s.fault = none) (hp : s.atPc p) (h : step s = .next t) (ht : t.fault = some f) :
    f.opcode = (fetchOpcode s p).toOption ∧
      (t = s.takeFault f ∨
        ∃ o left, f.opcode = some o ∧ StopsWith o s (.raise f.kind f.operand f.reg left) ∧ t = left.takeFault f) := by
  unfold step at h
  split at h
  next =>
    cases h
    rw [hf] at ht
    cases ht
  next d e he =>
    obtain ⟨hd, k, j, rfl⟩ := fetch_stop_of_atPc hp he
    rw [settle_raise hp] at h
    cases h
    cases ht
    exact ⟨hd, .inl rfl⟩
  next i hi =>
    obtain ⟨ho, left, hstop, rfl⟩ := exec_records hf h ht
    refine ⟨?_, .inr ⟨i.opcode, left, ho, hstop, rfl⟩⟩
    rw [ho, fetchOpcode_of_fetch_run hp hi]
    rfl

/-! ## Which faults, and what they leave -/

/-- Every fault of an instruction is one of its row of 60_exceptions R263, those of a push included. -/
theorem StopsWith.listed (h : StopsWith o s (.raise k j q left)) (hs : RunInv s) : mayRaise o k = true := by
  rcases h with ⟨_, h, -⟩ | ⟨_, _, _, h, hk⟩ |
    ⟨n, _, -, hk, ⟨ho, h⟩ | ⟨rfl, _, _, -, -, h⟩⟩ | ⟨hsp, -, -⟩
  · cases h
  · cases h
    exact hk hs
  · cases h
    rcases ho with rfl | rfl <;> rcases hk with rfl | rfl <;> rfl
  · cases h
    rcases hk with rfl | rfl <;> rfl
  · obtain ⟨n, hn⟩ := hs.sp_eq
    rw [hsp] at hn
    cases hn

end

/-! ## The statements -/

/-- Settles O50: the record is of the opcode the fetch found; what a step leaves with a new record keeps PC and names
it. -/
theorem faultRecordNamesTheInstruction : Obligations.FaultRecordNamesTheInstruction := by
  unfold Obligations.FaultRecordNamesTheInstruction
  intro s t p f hf hp h ht
  obtain ⟨hop, -⟩ := step_records hf hp h ht
  have hpc : f.pc = p ∧ t.reg .pc = s.reg .pc := by
    rcases step_leaves h with rfl | ⟨-, i, hl⟩
    · rw [hf] at ht
      cases ht
    rcases hl.fault_cases with hsame | ⟨g, hg, hgp, hpc⟩
    · rw [hsame, hf] at ht
      cases ht
    · rw [hg] at ht
      cases ht
      exact ⟨hgp.trans (faultPc_of_atPc hp), hpc⟩
  refine ⟨hpc.1, hpc.2, ?_⟩
  rw [hop, fetchOpcode]
  split
  · rfl
  · cases s.progWord p.toInt.toNat <;> rfl

/-- Settles O51: a stop inside a push is the only one that left a state other than the one the instruction began
in. -/
theorem faultsArePrecise : Obligations.FaultsArePrecise := by
  unfold Obligations.FaultsArePrecise
  intro s t p n h f hf hp hn hh hstep ht
  obtain ⟨-, rfl | ⟨o, left, ho, hstop, rfl⟩⟩ := step_records hf hp hstep ht
  · exact .inl rfl
  have hsp {m : Word64} (hm : rdNum s .sp 0 = .ok m) : n = m :=
    Except.ok.inj ((rdNum_of_addr 0 hn).symm.trans hm)
  have hhp {m : Word64} (hm : rdNum s .hp 0 = .ok m) : h = m :=
    Except.ok.inj ((rdNum_of_addr 0 hh).symm.trans hm)
  rcases hstop with ⟨_, he, -⟩ | ⟨_, _, _, he, -⟩ |
    ⟨m, k, hm, hk, ⟨hpush, he⟩ | ⟨rfl, a, d, ha, hd, he⟩⟩ | ⟨hnone, -, -⟩
  · cases he
  · obtain ⟨-, -, -, rfl⟩ := Stop.raise.inj he
    exact .inl rfl
  · obtain ⟨rfl, hj, hq, rfl⟩ := Stop.raise.inj he
    obtain rfl := hsp hm
    exact .inr ⟨hk, hj, hq, .inl ⟨by simpa [ho] using hpush, rfl⟩⟩
  · obtain ⟨rfl, hj, hq, rfl⟩ := Stop.raise.inj he
    obtain rfl := hsp hm
    obtain rfl := hhp ha
    exact .inr ⟨hk, hj, hq, .inr ⟨ho, d, hd, rfl⟩⟩
  · exact absurd (hn.symm.trans hnone) nofun

/-- Settles O52: the fault is one the instruction stopped with. -/
theorem onlyListedFaultsAreRaised : Obligations.OnlyListedFaultsAreRaised := by
  unfold Obligations.OnlyListedFaultsAreRaised
  intro i s t f hs hf h ht
  obtain ⟨-, left, hstop, -⟩ := exec_records hf h ht
  exact hstop.listed hs

end Sys2Proof.Machine
end

section
/-! PROOF. 70_reset_and_hazards R302, R303: a requested step completes, and the status outputs report the fault
record, whose opcode and register are read back from their numbers. -/

namespace Sys2Proof.Machine

/-! ## The fields of the status outputs -/

/-- The field `fault_opcode` for the opcode of a record; 31 is the number of no opcode. -/
def opcodeField : Option Opcode → BitVec 5
  | some o => BitVec.ofNat 5 o.number
  | none => 31

/-- The field `fault_reg` for the register of a record; 15 is the number of no register. -/
def regField : Option Reg → BitVec 4
  | some r => BitVec.ofNat 4 r.number
  | none => 15

@[simp] theorem ofNumber_opcodeField (d : Option Opcode) : Opcode.ofNumber (opcodeField d).toNat = d := by
  cases d with
  | none => rfl
  | some o =>
    have ho : o.number < 2 ^ 5 := by have := o.number_le; omega
    simp only [opcodeField, BitVec.toNat_ofNat, Nat.mod_eq_of_lt ho, Opcode.ofNumber_number]

@[simp] theorem ofNumber_regField (q : Option Reg) : Reg.ofNumber (regField q).toNat = q := by
  cases q with
  | none => rfl
  | some r =>
    have hr : r.number < 2 ^ 4 := by have := r.number_le; omega
    simp only [regField, BitVec.toNat_ofNat, Nat.mod_eq_of_lt hr, Reg.ofNumber_number]

/-- The two bits of `fault_operand` hold every operand position. -/
theorem toNat_operandField (j : Fin 3) : (BitVec.ofNat 2 j.val).toNat = j.val := by
  rw [BitVec.toNat_ofNat, Nat.mod_eq_of_lt (by omega)]

/-! ## The codes of the fault kinds (60_exceptions R250) -/

/-- The fault kind of a code. -/
def FaultKind.ofCode : Nat → Option FaultKind
  | 1 => some .typeMismatch
  | 2 => some .nilRegister
  | 3 => some .unsupportedOperand
  | 4 => some .unsupportedWord
  | 5 => some .stackOverflow
  | 6 => some .stackUnderflow
  | 7 => some .heapOutOfBounds
  | 8 => some .outOfMemory
  | 9 => some .stackOutOfBounds
  | 10 => some .emptySlot
  | 11 => some .unimplementedOpcode
  | _ => none

@[simp] theorem FaultKind.ofCode_code (k : FaultKind) : FaultKind.ofCode k.code.toNat = some k := by
  cases k <;> rfl

theorem FaultKind.code_injective : Function.Injective FaultKind.code := by
  intro k k' h
  have hsome : some k = some k' := by rw [← k.ofCode_code, h, k'.ofCode_code]
  exact Option.some.inj hsome

theorem FaultKind.code_bounds (k : FaultKind) : 1 ≤ k.code.toNat ∧ k.code.toNat ≤ 11 := by
  cases k <;> decide

/-! ## The outputs with and without a record -/

section
variable {s : State} {f : FaultRecord} {x : BitVec 64} {y : BitVec 2}

theorem status_ne_faulted_of_no_fault (hf : s.fault = none) : s.status ≠ .faulted := by
  unfold State.status
  rw [hf]
  simp only [Option.isSome_none, Bool.false_eq_true, if_false]
  split
  · split <;> nofun
  · nofun

/-- Of an engine without a fault the code of the run state only tells whether it is halted. -/
theorem statusCode_of_no_fault (hf : s.fault = none) :
    statusCode s.status = if s.status = .halted then 1 else 0 := by
  cases hs : s.status with
  | running => rfl
  | halted => rfl
  | faulted => exact absurd hs (status_ne_faulted_of_no_fault hf)

theorem statusOutputs_of_fault (hf : s.fault = some f) :
    statusOutputs s x y =
      { status := 2, faultKind := f.kind.code, faultPc := f.pc, faultOpcode := opcodeField f.opcode,
        faultOperand := BitVec.ofNat 2 f.operand.val, faultReg := regField f.reg } := by
  have hs : s.status = .faulted := status_of_fault (hf ▸ nofun)
  unfold statusOutputs
  rw [hf, hs]
  rfl

theorem statusOutputs_of_no_fault (hf : s.fault = none) :
    statusOutputs s x y =
      { status := if s.status = .halted then 1 else 0, faultKind := 0, faultPc := x, faultOpcode := 31,
        faultOperand := y, faultReg := 15 } := by
  rw [← statusCode_of_no_fault hf]
  unfold statusOutputs
  rw [hf]

end

/-! ## The statements -/

/-- Settles O54: the invariant keeps the model's own stop out of the fetch and of every instruction. -/
theorem stepAlwaysCompletes : Obligations.StepAlwaysCompletes := by
  unfold Obligations.StepAlwaysCompletes
  intro s hs
  exact hs.completes

/-- Settles O5: the fields of a record are read back from their outputs, the kind from its code. -/
theorem statusOutputsReportTheRecord : Obligations.StatusOutputsReportTheRecord := by
  unfold Obligations.StatusOutputsReportTheRecord
  refine ⟨fun s f x y hf => ?fault, fun s x y hf => ?noFault, FaultKind.code_injective, FaultKind.code_bounds⟩
  case fault =>
    rw [statusOutputs_of_fault hf]
    exact ⟨rfl, rfl, rfl, ofNumber_opcodeField f.opcode, toNat_operandField f.operand, ofNumber_regField f.reg⟩
  case noFault =>
    rw [statusOutputs_of_no_fault hf]
    exact ⟨rfl, rfl, rfl, rfl⟩

end Sys2Proof.Machine
end
